-- ==== Sys2Proof/Word.lean ====
section
/-! DEFINITION. The machine word and the ranges of the small fields of an instruction word. -/

namespace Sys2Proof

/-- A register value, the PC and an instruction word are unsigned 32-bit values (00_scope.md R5). -/
abbrev Word := BitVec 32

/-- The index of a register: a 5-bit field, so every value names a register (10_state.md R10). -/
abbrev Reg := Fin 32

/-- A shift amount, 0 to 31 (30_encoding.md R46, field `shamt`). -/
abbrev Shamt := Fin 32

end Sys2Proof
end

