-- ==== Sys2Proof/Syntax.lean ====
section
/-! DEFINITION. The instructions: one constructor for each row of spec/opcode_table.json. -/

namespace Sys2Proof

/-- The instruction set (30_encoding.md R53, spec/opcode_table.json). Operands stand in the order of
the assembly text (R61), destination first. `unused` holds the five bits of a field that the
instruction ignores (`shamt` for `add`, `rt` for `srl` and `sll`; R53, decision D12, log 12): no
meaning reads it, and it is kept so that a word can be rebuilt exactly. -/
inductive Instr where
  /-- `nop`, the all-zero sentinel word (R101). -/
  | nop
  /-- `addi rt rs imm` (R70). -/
  | addi (rt rs : Reg) (imm : BitVec 16)
  /-- `andi rt rs imm` (R71). -/
  | andi (rt rs : Reg) (imm : BitVec 16)
  /-- `add rd rs rt` (R80). -/
  | add (rd rs rt : Reg) (unused : BitVec 5)
  /-- `srl rd rs shamt` (R81). -/
  | srl (rd rs : Reg) (shamt : Shamt) (unused : BitVec 5)
  /-- `sll rd rs shamt` (R82). -/
  | sll (rd rs : Reg) (shamt : Shamt) (unused : BitVec 5)
  /-- `beq rs rt offset`, the offset counted in instructions (R90). -/
  | beq (rs rt : Reg) (offset : BitVec 16)
  /-- `bne rs rt offset` (R91). -/
  | bne (rs rt : Reg) (offset : BitVec 16)
  deriving DecidableEq, Repr

/-- The register an instruction writes, if it writes one: `x[rt]` for `addi` and `andi`, `x[rd]` for
`add`, `srl` and `sll`, none for the others (10_state.md R12). -/
def Instr.dest : Instr → Option Reg
  | .nop => none
  | .addi rt _ _ => some rt
  | .andi rt _ _ => some rt
  | .add rd _ _ _ => some rd
  | .srl rd _ _ _ => some rd
  | .sll rd _ _ _ => some rd
  | .beq _ _ _ => none
  | .bne _ _ _ => none

/-- The registers an instruction names as sources (R70 to R91). -/
def Instr.sources : Instr → List Reg
  | .nop => []
  | .addi _ rs _ => [rs]
  | .andi _ rs _ => [rs]
  | .add _ rs rt _ => [rs, rt]
  | .srl _ rs _ _ => [rs]
  | .sll _ rs _ _ => [rs]
  | .beq rs rt _ => [rs, rt]
  | .bne rs rt _ => [rs, rt]

/-- The offset field of a branch; no other instruction transfers control (42_branch.md R94). -/
def Instr.offset : Instr → Option (BitVec 16)
  | .nop => none
  | .addi _ _ _ => none
  | .andi _ _ _ => none
  | .add _ _ _ _ => none
  | .srl _ _ _ _ => none
  | .sll _ _ _ _ => none
  | .beq _ _ offset => some offset
  | .bne _ _ offset => some offset

end Sys2Proof
end

