-- ==== Sys2Proof/WellFormed.lean ====
section
/-! DEFINITION. Which terms of `Instr` are instructions of the machine. -/

namespace Sys2Proof

/-- Whether a word stands for the instruction. The types bound every field, so one check is left:
`sll $zero $zero 0` with its ignored field zero has the all-zero word, which is the sentinel and no
`sll` (30_encoding.md R54, R58; 41_register_arith_shift.md R82). -/
def Instr.wf : Instr → Bool
  | .nop => true
  | .addi _ _ _ => true
  | .andi _ _ _ => true
  | .add _ _ _ _ => true
  | .srl _ _ _ _ => true
  | .sll rd rs shamt unused => !(rd == 0 && rs == 0 && shamt == 0 && unused == 0#5)
  | .beq _ _ _ => true
  | .bne _ _ _ => true

end Sys2Proof
end

