-- ==== Sys2Proof/Decode.lean ====
section
/-! DEFINITION. The decoder, from the masks and matches of 30_encoding.md R53, and after it the
encoder, from the field pictures R46 to R51 and the values of R52. -/

namespace Sys2Proof

/-! ## Fields of an instruction word (30_encoding.md R46) -/

/-- `rs = w[25:21]`. -/
def fieldRs (w : Word) : Reg := (w.extractLsb' 21 5).toFin

/-- `rt = w[20:16]`. -/
def fieldRt (w : Word) : Reg := (w.extractLsb' 16 5).toFin

/-- `rd = w[15:11]`. -/
def fieldRd (w : Word) : Reg := (w.extractLsb' 11 5).toFin

/-- `shamt = w[10:6]`. -/
def fieldShamt (w : Word) : Shamt := (w.extractLsb' 6 5).toFin

/-- `imm16 = w[15:0]`. -/
def fieldImm16 (w : Word) : BitVec 16 := w.extractLsb' 0 16

/-- The five bits of `w[20:16]` where the instruction ignores them (`srl`, `sll`; R53). -/
def ignoredRt (w : Word) : BitVec 5 := w.extractLsb' 16 5

/-- The five bits of `w[10:6]` where the instruction ignores them (`add`; R53). -/
def ignoredShamt (w : Word) : BitVec 5 := w.extractLsb' 6 5

/-! ## The opcode table (30_encoding.md R53) -/

/-- The eight rows of the table, by mnemonic. -/
inductive Kind where
  | nop | addi | andi | add | srl | sll | beq | bne
  deriving DecidableEq, Repr

/-- One row of the table: a word `w` matches it when `(w & mask) = pattern` (R53). -/
structure Row where
  kind : Kind
  mask : Word
  pattern : Word
  deriving DecidableEq, Repr

/-- Whether a word matches a row. -/
def Row.matches (r : Row) (w : Word) : Bool := w &&& r.mask == r.pattern

/-- The rows in the order in which the decoder tests them (R53, column priority). The numbers are
the MIPS32 values by decision D1 (PRESUMED, log 2, unsafe), and the sentinel stands first by
decision D13 (log 11). -/
def opcodeTable : List Row :=
  [ ⟨.nop,  0xFFFFFFFF#32, 0x00000000#32⟩,
    ⟨.addi, 0xFC000000#32, 0x20000000#32⟩,
    ⟨.andi, 0xFC000000#32, 0x30000000#32⟩,
    ⟨.add,  0xFC00003F#32, 0x00000020#32⟩,
    ⟨.srl,  0xFC00003F#32, 0x00000002#32⟩,
    ⟨.sll,  0xFC00003F#32, 0x00000000#32⟩,
    ⟨.beq,  0xFC000000#32, 0x10000000#32⟩,
    ⟨.bne,  0xFC000000#32, 0x14000000#32⟩ ]

/-- The kind of the first row that a word matches (R53, R100). -/
def classify (w : Word) : Option Kind :=
  (opcodeTable.find? fun r => r.matches w).map Row.kind

/-- The instruction of a given kind with its operands taken from the word (R55, R47 to R51). The
register that `srl` and `sll` shift is the field at bit offset 21 (R48). -/
def build (k : Kind) (w : Word) : Instr :=
  match k with
  | .nop => .nop
  | .addi => .addi (fieldRt w) (fieldRs w) (fieldImm16 w)
  | .andi => .andi (fieldRt w) (fieldRs w) (fieldImm16 w)
  | .add => .add (fieldRd w) (fieldRs w) (fieldRt w) (ignoredShamt w)
  | .srl => .srl (fieldRd w) (fieldRs w) (fieldShamt w) (ignoredRt w)
  | .sll => .sll (fieldRd w) (fieldRs w) (fieldShamt w) (ignoredRt w)
  | .beq => .beq (fieldRs w) (fieldRt w) (fieldImm16 w)
  | .bne => .bne (fieldRs w) (fieldRt w) (fieldImm16 w)

/-- Why the decoder names no instruction. -/
inductive Reject where
  /-- The word matches no row of the table (30_encoding.md R56). It is no illegal instruction: the
  step runs it as a no-op (43_step_sentinel_unmatched.md R103). -/
  | unmatchedWord (w : Word)
  deriving DecidableEq, Repr

/-- The decoder, total on 32-bit words (R53, R56). -/
def decode (w : Word) : Except Reject Instr :=
  match classify w with
  | some k => .ok (build k w)
  | none => .error (.unmatchedWord w)

/-- The instruction word whose low `nbits` bits are those of `w` and whose other bits are 0. A word
is one unit of the stream, so no byte order enters (20_memory.md R34, log 5). -/
def tableWord (nbits w : Nat) : Word := BitVec.ofNat 32 (w % 2 ^ min nbits 32)

/-- What the decoder reads from an instruction whose bits are `w`, numbered as
spec/opcode_table.json numbers them. -/
def decodeTableWord (nbits w : Nat) : Option Instr :=
  match decode (tableWord nbits w) with
  | .ok i => some i
  | .error _ => none

/-! ## The encoder (30_encoding.md R47 to R52) -/

/-- The five bits of a register index or a shift amount. -/
def bits5 (n : Fin 32) : BitVec 5 := BitVec.ofFin n

/-- Formats IA and IB: `op`, `rs`, `rt`, `imm16` from the top bit down (R49, R50). -/
def formatI (op : BitVec 6) (rs rt : BitVec 5) (imm16 : BitVec 16) : Word :=
  op ++ rs ++ rt ++ imm16

/-- Formats R3 and RS: `op = 0`, `rs`, `rt`, `rd`, `shamt`, `funct` from the top bit down
(R47, R48). -/
def formatR (rs rt rd shamt : BitVec 5) (funct : BitVec 6) : Word :=
  0b000000#6 ++ rs ++ rt ++ rd ++ shamt ++ funct

/-- The word of an instruction, with the `op` and `funct` values of R52 (decision D1, PRESUMED,
log 2). For a well-formed instruction this is the word the decoder reads back (R58). -/
def encode : Instr → Word
  | .nop => 0x00000000#32
  | .addi rt rs imm => formatI 0b001000#6 (bits5 rs) (bits5 rt) imm
  | .andi rt rs imm => formatI 0b001100#6 (bits5 rs) (bits5 rt) imm
  | .add rd rs rt unused => formatR (bits5 rs) (bits5 rt) (bits5 rd) unused 0b100000#6
  | .srl rd rs shamt unused => formatR (bits5 rs) unused (bits5 rd) (bits5 shamt) 0b000010#6
  | .sll rd rs shamt unused => formatR (bits5 rs) unused (bits5 rd) (bits5 shamt) 0b000000#6
  | .beq rs rt offset => formatI 0b000100#6 (bits5 rs) (bits5 rt) offset
  | .bne rs rt offset => formatI 0b000101#6 (bits5 rs) (bits5 rt) offset

end Sys2Proof
end

