-- ==== Sys2Proof/Config.lean ====
section
/-! DEFINITION. The constants of the machine that the spec leaves open (00_scope.md R6). -/

namespace Sys2Proof

/-- `PC_BASE`, the PC after reset. The spec leaves it open (00_scope.md R6, decision D3) and names
`0x00400000` as the default of its worked examples. DESIGN CHOICE (log 1, unsafe): the value
`State.reset` uses; `State.resetAt` takes any base, and claims are stated over every base. -/
def Config.pcBase : Word := 0x00400000#32

/-- `STREAM_CAPACITY`, the largest `N` the block can hold: a natural number, or `none` for
unbounded. Open in the spec, and no rule reads it (00_scope.md R6, decision D9; log 4). It has no
body, so no proof can see its value. -/
opaque Config.streamCapacity : Option Nat

end Sys2Proof
end

