-- ==== Sys2Proof/Machine/State.lean ====
section
/-! DEFINITION. The state of the machine, the reasons a step can stop, and the state after reset. -/

namespace Sys2Proof.Machine

/-- The run status (10_state.md R22): there is no third value, and no fault state. -/
inductive Status where
  /-- The next step fetches `IMem[idx]`. -/
  | running
  /-- The block takes no further step. -/
  | halted
  deriving DecidableEq, Repr

/-- The instruction stream `IMem`: `N` words at indices `0 .. N-1`, `N` being the list's length
(20_memory.md R30). The unit of the address space is the word; there is no byte-level image
(10_state.md R26, R34, log 5), so a list of words is canonical: equal streams are equal lists. -/
abbrev Memory := List Word

/-- The state (10_state.md, section 1). The stream is constant during a run (20_memory.md R32) and
stands here because a step has the state as its one argument (DESIGN CHOICE, log 3, safe). -/
structure State where
  /-- `x[0] .. x[31]` (R10); register 0 is an ordinary register (R11, log 10). -/
  regs : Vector Word 32
  /-- The program counter, an output that nothing reads (R16, R17). -/
  pc : Word
  /-- The instruction index cursor, a mathematical integer (R18, log 6). -/
  idx : Int
  /-- The run status (R22). -/
  status : Status
  /-- `IMem` and `N` (20_memory.md R30, 00_scope.md R6). -/
  imem : Memory
  deriving DecidableEq, Repr

/-- Why the machine can stop with a fault. The hardware has no fault (60_exceptions.md R110); this
is a model outcome. -/
inductive Fault where
  /-- Raised by `step` when a running block has a cursor below 0: the source defines no behaviour
  there (42_branch.md R93, 60_exceptions.md R117, decision D7, log 6). Safe: nothing can be claimed
  of such a run. -/
  | cursorBeforeStart
  deriving DecidableEq, Repr

/-- Why an instruction can be refused. -/
inductive Refusal where
  /-- Raised by an arm of `exec` whose instruction has no meaning yet. Safe. No arm of this model
  raises it. -/
  | notModelled (mnemonic : String)
  deriving DecidableEq, Repr

/-- The reset state for a given `PC_BASE` and a given loaded stream (70_reset_and_hazards.md R130):
all registers zero, `pc = PC_BASE`, `idx = 0`, `Running`. -/
def State.resetAt (base : Word) (imem : Memory) : State where
  regs := Vector.replicate 32 0#32
  pc := base
  idx := 0
  status := .running
  imem := imem

/-- The machine right after reset, before the host has loaded a stream: `N = 0` (DESIGN CHOICE,
log 3) and `PC_BASE` at the model's value (DESIGN CHOICE, log 1, unsafe). -/
def State.reset : State := State.resetAt Config.pcBase []

end Sys2Proof.Machine
end

