-- ==== Sys2Proof/Machine/Flags.lean ====
section
/-! DEFINITION. The hardware has no flags: no instruction sets or reads a carry, overflow, zero or
sign flag (10_state.md R23), so no flag is computed anywhere. What other machines read from flags,
`beq` and `bne` read from a comparison of two registers; that comparison stands here. -/

namespace Sys2Proof.Machine

/-- The condition of `beq`: all 32 bits agree; sign has no part in it (41_register_arith_shift.md
R84, 42_branch.md R90). -/
def condEqual (a b : Word) : Bool := a == b

/-- The condition of `bne`: some bit differs (42_branch.md R91). -/
def condDiffer (a b : Word) : Bool := !(a == b)

end Sys2Proof.Machine
end

