-- ==== Sys2Proof/Machine/Operands.lean ====
section
/-! DEFINITION. How the immediate, the branch offset and the shift amount of an instruction are used
(30_encoding.md R55), and the arithmetic of the instruction set (41_register_arith_shift.md R84). -/

namespace Sys2Proof.Machine

/-- `sext_32`: the 32-bit value with the same two's-complement meaning (00_scope.md, notation), the
immediate of `addi` (R70). -/
def sext32 (v : BitVec 16) : Word := v.signExtend 32

/-- `zext_32`: the 32-bit value with the same unsigned meaning (00_scope.md, notation), the immediate
of `andi` (R71). -/
def zext32 (v : BitVec 16) : Word := v.setWidth 32

/-- `signed`: the integer a 16-bit value denotes in two's complement, -32768 to 32767 (00_scope.md,
notation), the offset of `beq` and `bne` (R90). -/
def signed16 (v : BitVec 16) : Int := v.toInt

/-- An integer reduced modulo 2^32, as the PC update needs it (R84, decision D6, log 9). -/
def wrap32 (n : Int) : Word := BitVec.ofInt 32 n

/-- Addition modulo 2^32, no carry or overflow recorded, no trap (R84, R70, R80, decision D6,
log 9). -/
def aluAdd (a b : Word) : Word := a + b

/-- Bitwise AND (R84, R71). -/
def aluAnd (a b : Word) : Word := a &&& b

/-- Logical right shift by 0 to 31 (R84, R81). -/
def aluSrl (a : Word) (n : Shamt) : Word := a >>> n.val

/-- Logical left shift by 0 to 31, kept to 32 bits (R84, R82, decision D6, log 9). -/
def aluSll (a : Word) (n : Shamt) : Word := a <<< n.val

end Sys2Proof.Machine
end

