-- ==== Sys2Proof/Machine/Ops.lean ====
section
/-! DEFINITION. The operations over the register file, the cursor, the PC, the run status and the
instruction stream that every meaning is built from. The hardware takes no exception and returns
from none (60_exceptions.md R110 to R116), so there is no such operation; what ends a run is `halt`
(R114). -/

namespace Sys2Proof.Machine

/-! ## The register file -/

/-- `x[r]`: a read of a register (10_state.md R10). -/
def State.reg (s : State) (r : Reg) : Word := s.regs.get r

/-- `x[r] <- v`: a write of a register, register 0 like any other (R11, decision D4, log 10). -/
def State.setReg (s : State) (r : Reg) (v : Word) : State :=
  { s with regs := s.regs.set r.val v r.isLt }

/-! ## The cursor and the PC (10_state.md R19) -/

/-- The normal advance: cursor by one, PC by 4 modulo 2^32 (R19, R21). -/
def State.advance (s : State) : State :=
  { s with idx := s.idx + 1, pc := s.pc + 4#32 }

/-- `TAKEN_BRANCH_PC_EXTRA`: what a taken branch adds to the PC beside `4*o`. The value 0 is the
resolution of conflict C1 (90_conflicts.md, decision D5, log 8, unsafe for claims on the PC). -/
def takenBranchPcExtra : Word := 0#32

/-- A taken branch with offset `o`: cursor by `o + 1` without wrap, PC by `4*o` modulo 2^32 (R19,
42_branch.md R90). There is no delay slot (R92). -/
def State.takeBranch (s : State) (o : Int) : State :=
  { s with idx := s.idx + o + 1, pc := s.pc + wrap32 (4 * o) + takenBranchPcExtra }

/-- `halt`: the status becomes `Halted` and nothing else changes (00_scope.md, notation;
60_exceptions.md R114). -/
def State.halt (s : State) : State := { s with status := .halted }

/-! ## What a meaning answers -/

/-- A normal step that writes one register: the value was computed from the old state, so sources
are read before the destination is written (10_state.md R13, R72, R83). -/
def writeStep (d : Reg) (v : Word) (s : State) : Host.Outcome State Fault Refusal :=
  .next (s.setReg d v).advance

/-- A branch step: taken, or a normal advance (42_branch.md R90, R91). -/
def branchStep (taken : Bool) (offset : BitVec 16) (s : State) : Host.Outcome State Fault Refusal :=
  .next (if taken then s.takeBranch (signed16 offset) else s.advance)

/-- A step that ends the run (43_step_sentinel_unmatched.md R101, R102). -/
def haltStep (s : State) : Host.Outcome State Fault Refusal := .next s.halt

/-! ## The instruction stream (20_memory.md) -/

/-- `N`, the length of the stream (R30). -/
def Memory.size (m : Memory) : Int := (m.length : Int)

/-- `IMem[i]` for `0 <= i < N`, and nothing outside that range: words at other indices do not exist
(R31, R33, decision D19). -/
def Memory.read (m : Memory) (i : Int) : Option Word :=
  if i < 0 then none else m[i.toNat]?

/-- The host's placing of one word at an index. Where the index lies past the end, the stream grows
to hold it, and the places between are filled with the sentinel word (DESIGN CHOICE, log 21). No
step does this: the block has no store (R32, R36). -/
def Memory.place : Memory → Nat → Word → Memory
  | [], 0, w => [w]
  | [], i + 1, w => 0#32 :: Memory.place [] i w
  | _ :: m, 0, w => w :: m
  | v :: m, i + 1, w => v :: Memory.place m i w

/-- A stream the block can hold: `N <= STREAM_CAPACITY` (R30, log 4). The list of words is already
canonical, so this is all that well-formedness asks. -/
def Memory.wf (m : Memory) : Bool :=
  match Config.streamCapacity with
  | none => true
  | some c => decide (m.length ≤ c)

/-- What the fetch of a running block finds. -/
inductive Fetched where
  /-- The cursor is at or past the end: nothing is fetched (43_step_sentinel_unmatched.md R102). -/
  | endOfStream
  /-- The cursor is below 0: the source defines nothing (42_branch.md R93). -/
  | beforeStart
  /-- The word at the cursor (20_memory.md R31). -/
  | word (w : Word)
  deriving DecidableEq, Repr

/-- The fetch. The end-of-stream test comes first (R100, decision D16, log 11); the word is selected
by the cursor, not by the PC (R31). -/
def State.fetch (s : State) : Fetched :=
  if s.imem.size ≤ s.idx then .endOfStream
  else
    match s.imem.read s.idx with
    | some w => .word w
    | none => .beforeStart

end Sys2Proof.Machine
end

