-- ==== Sys2Proof/Machine/Branch.lean ====
section
/-! DEFINITION. The branches (spec/42_branch.md). A target is never checked (R93), and there is no
delay slot (R92). -/

namespace Sys2Proof.Machine

/-- `beq`: taken when the two registers are equal (R90). -/
def execBeq (rs rt : Reg) (offset : BitVec 16) (s : State) : Host.Outcome State Fault Refusal :=
  branchStep (condEqual (s.reg rs) (s.reg rt)) offset s

/-- `bne`: taken when the two registers differ (R91). -/
def execBne (rs rt : Reg) (offset : BitVec 16) (s : State) : Host.Outcome State Fault Refusal :=
  branchStep (condDiffer (s.reg rs) (s.reg rt)) offset s

end Sys2Proof.Machine
end

