-- ==== Sys2Proof/Machine/Immediate.lean ====
section
/-! DEFINITION. The register-immediate instructions (spec/40_immediate_arith.md). -/

namespace Sys2Proof.Machine

/-- `addi`: `x[rt] <- (x[rs] + sext_32(imm16)) mod 2^32`, no overflow exception (R70). -/
def execAddi (rt rs : Reg) (imm : BitVec 16) (s : State) : Host.Outcome State Fault Refusal :=
  writeStep rt (aluAdd (s.reg rs) (sext32 imm)) s

/-- `andi`: `x[rt] <- x[rs] & zext_32(imm16)` (R71; conflict C5). -/
def execAndi (rt rs : Reg) (imm : BitVec 16) (s : State) : Host.Outcome State Fault Refusal :=
  writeStep rt (aluAnd (s.reg rs) (zext32 imm)) s

end Sys2Proof.Machine
end

