-- ==== Sys2Proof/Machine/Register.lean ====
section
/-! DEFINITION. The register-register instructions (spec/41_register_arith_shift.md). -/

namespace Sys2Proof.Machine

/-- `add`: `x[rd] <- (x[rs] + x[rt]) mod 2^32`, no overflow exception (R80). -/
def execAdd (rd rs rt : Reg) (s : State) : Host.Outcome State Fault Refusal :=
  writeStep rd (aluAdd (s.reg rs) (s.reg rt)) s

/-- `srl`: `x[rd] <- x[rs] >> shamt`, zeros shifted in (R81). -/
def execSrl (rd rs : Reg) (shamt : Shamt) (s : State) : Host.Outcome State Fault Refusal :=
  writeStep rd (aluSrl (s.reg rs) shamt) s

/-- `sll`: `x[rd] <- (x[rs] << shamt) mod 2^32` (R82). -/
def execSll (rd rs : Reg) (shamt : Shamt) (s : State) : Host.Outcome State Fault Refusal :=
  writeStep rd (aluSll (s.reg rs) shamt) s

end Sys2Proof.Machine
end

