-- ==== Sys2Proof/Machine/Sentinel.lean ====
section
/-! DEFINITION. The sentinel, the end of the stream and the unmatched word
(spec/43_step_sentinel_unmatched.md). -/

namespace Sys2Proof.Machine

/-- `nop`, the sentinel: the run ends; registers, PC and cursor stay (R101). -/
def execNop (s : State) : Host.Outcome State Fault Refusal := haltStep s

/-- The end of the stream: the run ends with the same effect (R102). -/
def endOfStreamStep (s : State) : Host.Outcome State Fault Refusal := haltStep s

/-- A word that matches no row: a no-op step, cursor and PC advance by one instruction (R103,
decision D14, log 13). -/
def execUnmatched (s : State) : Host.Outcome State Fault Refusal := .next s.advance

/-- A step of a halted block: there is none, and the state no longer changes (10_state.md R22,
43_step_sentinel_unmatched.md R104). DEDUCED (log 7): the step answers the same state. -/
def haltedStep (s : State) : Host.Outcome State Fault Refusal := .next s

end Sys2Proof.Machine
end

