-- ==== Sys2Proof/Machine/Dispatch.lean ====
section
/-! DEFINITION. The meaning of each instruction, one arm for each constructor of `Instr`. -/

namespace Sys2Proof.Machine

def exec (i : Instr) (s : State) : Host.Outcome State Fault Refusal :=
  match i with
  | .nop => Sys2Proof.Machine.execNop s
  | .addi rt rs imm => Sys2Proof.Machine.execAddi rt rs imm s
  | .andi rt rs imm => Sys2Proof.Machine.execAndi rt rs imm s
  | .add rd rs rt _ => Sys2Proof.Machine.execAdd rd rs rt s
  | .srl rd rs shamt _ => Sys2Proof.Machine.execSrl rd rs shamt s
  | .sll rd rs shamt _ => Sys2Proof.Machine.execSll rd rs shamt s
  | .beq rs rt offset => Sys2Proof.Machine.execBeq rs rt offset s
  | .bne rs rt offset => Sys2Proof.Machine.execBne rs rt offset s

end Sys2Proof.Machine
end

