-- ==== Sys2Proof/Machine/Cycle.lean ====
section
/-! DEFINITION. What one step of the block does (43_step_sentinel_unmatched.md R100). -/

namespace Sys2Proof.Machine

/-- The step on a fetched word: the instruction the decoder names, or the no-op step of an unmatched
word (R100, R103). -/
def stepWord (w : Word) (s : State) : Host.Outcome State Fault Refusal :=
  match decode w with
  | .ok i => exec i s
  | .error _ => execUnmatched s

/-- The step of a running block: end of stream, cursor below 0, then the word (R100, R113). -/
def runningStep (s : State) : Host.Outcome State Fault Refusal :=
  match s.fetch with
  | .endOfStream => endOfStreamStep s
  | .beforeStart => .fault .cursorBeforeStart
  | .word w => stepWord w s

end Sys2Proof.Machine
end

