-- ==== Sys2Proof/Machine/Step.lean ====
section
/-! DEFINITION. One step of the block (43_step_sentinel_unmatched.md R100), and the host's placing of
one instruction where the next step fetches it. -/

namespace Sys2Proof.Machine

/-- `Step` (R100): a halted block takes none, a running one fetches and executes. Nothing is added
after an instruction's own update of cursor and PC. -/
def step (s : State) : Host.Outcome State Fault Refusal :=
  match s.status with
  | .halted => haltedStep s
  | .running => runningStep s

/-- The host's load of one instruction at the cursor, so that the very next step runs it: a stream
whose word at the cursor is the instruction, with the block running. A cursor below 0 is set to 0,
since nothing can be fetched there (log 3, log 21). -/
def State.withFetchWord (s : State) (nbits w : Nat) : State :=
  { s with
    idx := (s.idx.toNat : Int)
    status := .running
    imem := s.imem.place s.idx.toNat (tableWord nbits w) }

end Sys2Proof.Machine
end

