-- ==== Sys2Proof/Machine/Assembler.lean ====
section
/-! DEFINITION. The assembler, the surrounding software that produces a stream (00_scope.md R3;
30_encoding.md R59 to R68). No rule of the hardware depends on it. A form that the spec does not show
is refused by name and produces no stream (93_implementation_defined.md U11, log 16, safe). -/

namespace Sys2Proof.Asm

/-- The text of a source line, or of one token of it. -/
abbrev Text := List Char

/-- Why an assembly fails (30_encoding.md R66). Every error is fatal: no stream is produced. Which of
several errors in one source is reported is the model's choice (log 16, DESIGN CHOICE). -/
inductive AsmError where
  /-- A line without a mnemonic (R59). -/
  | parse
  /-- A mnemonic that is none of the eight (R60). -/
  | unknownOpcode (name : Text)
  /-- A register operand that is none of the 32 names (R62). -/
  | unknownRegister (name : Text)
  /-- An immediate, an offset or a shift amount outside its range (R63). -/
  | outOfRange (value : Int)
  /-- A branch target that labels no line (R64). -/
  | unresolvedLabel (name : Text)
  /-- A form the spec does not show, on which no reader may rely (U11, log 16). -/
  | notShown (token : Text)
  deriving DecidableEq, Repr

/-! ## Lines and tokens (R59) -/

/-- A source line split into its tokens: `[label:] mnemonic [arg1 [arg2 [arg3]]]`. -/
structure Line where
  label : Option Text
  mnemonic : Text
  args : List Text
  deriving DecidableEq, Repr

/-- The tokens of a text: its maximal runs without white space. -/
def tokens (t : Text) : List Text := (t.splitOnP Char.isWhitespace).filter (· ≠ [])

/-- The text before the first `:` of a line, if it has one, and the text after it (R64). -/
def splitLabel : Text → Option Text × Text
  | [] => (none, [])
  | ':' :: rest => (some [], rest)
  | c :: rest =>
    match splitLabel rest with
    | (none, r) => (none, c :: r)
    | (some l, r) => (some (c :: l), r)

/-- A label is one token (R59); the white space around it is dropped (log 16). -/
def labelText : Option Text → Except AsmError (Option Text)
  | none => .ok none
  | some l =>
    match tokens l with
    | [t] => .ok (some t)
    | _ => .error (.notShown l)

/-- The split of a line into label, mnemonic and arguments; a line without a mnemonic is a parse
error (R59). -/
def parseLine (t : Text) : Except AsmError Line :=
  match labelText (splitLabel t).1 with
  | .error e => .error e
  | .ok label =>
    match tokens (splitLabel t).2 with
    | [] => .error .parse
    | m :: args => .ok { label := label, mnemonic := m, args := args }

/-- Every line of a source, split in order; an error is fatal (R66). That the first in line order is
reported is the model's choice (log 16). -/
def parseAll : List Text → Except AsmError (List Line)
  | [] => .ok []
  | t :: rest =>
    match parseLine t with
    | .error e => .error e
    | .ok l =>
      match parseAll rest with
      | .error e => .error e
      | .ok ls => .ok (l :: ls)

/-! ## Mnemonics and registers -/

/-- The spelling of a mnemonic (R60). -/
def mnemonicOf : Kind → Text
  | .nop => "nop".toList
  | .addi => "addi".toList
  | .andi => "andi".toList
  | .add => "add".toList
  | .srl => "srl".toList
  | .sll => "sll".toList
  | .beq => "beq".toList
  | .bne => "bne".toList

/-- The eight mnemonics, exactly (R60). -/
def allKinds : List Kind := [.nop, .addi, .andi, .add, .srl, .sll, .beq, .bne]

/-- The mnemonic a token names (R60). -/
def findKind (t : Text) : Except AsmError Kind :=
  match allKinds.find? fun k => mnemonicOf k == t with
  | some k => .ok k
  | none => .error (.unknownOpcode t)

/-- The 32 register names in index order (10_state.md R14). The spellings and the numbers are
decision D2 (PRESUMED, log 15); the hardware sees indices only. -/
def registerNames : Vector String 32 :=
  #v["$zero", "$at", "$v0", "$v1", "$a0", "$a1", "$a2", "$a3",
     "$t0", "$t1", "$t2", "$t3", "$t4", "$t5", "$t6", "$t7",
     "$s0", "$s1", "$s2", "$s3", "$s4", "$s5", "$s6", "$s7",
     "$t8", "$t9", "$k0", "$k1", "$gp", "$sp", "$fp", "$ra"]

/-- The name of a register (R14). -/
def registerName (r : Reg) : Text := (registerNames.get r).toList

/-- The register a token names (R62). -/
def findRegister (t : Text) : Except AsmError Reg :=
  match (List.finRange 32).find? fun r => registerName r == t with
  | some r => .ok r
  | none => .error (.unknownRegister t)

/-! ## Numbers and ranges (R63) -/

/-- The value of a digit in a base up to 16, by its character. -/
def digitValue (base : Nat) (c : Char) : Option Nat :=
  let v :=
    if '0' ≤ c ∧ c ≤ '9' then c.toNat - '0'.toNat
    else if 'a' ≤ c ∧ c ≤ 'f' then c.toNat - 'a'.toNat + 10
    else if 'A' ≤ c ∧ c ≤ 'F' then c.toNat - 'A'.toNat + 10
    else 16
  if v < base then some v else none

/-- A run of digits, most significant first, after the value `acc`. -/
def digits (base : Nat) : Nat → Text → Option Nat
  | acc, [] => some acc
  | acc, c :: rest =>
    match digitValue base c with
    | some v => digits base (acc * base + v) rest
    | none => none

/-- At least one digit. -/
def unsignedNumber (base : Nat) : Text → Option Nat
  | [] => none
  | t => digits base 0 t

/-- Decimal with an optional minus sign, the number syntax the spec lets a reader assume
(91_not_in_source.md N7). That leading zeros are accepted and change nothing, so that `010` is ten, is
the model's choice (log 16, DESIGN CHOICE). -/
def decimal : Text → Option Int
  | '-' :: t => (unsignedNumber 10 t).map fun n => -(n : Int)
  | t => (unsignedNumber 10 t).map fun n => (n : Int)

/-- The `0x` form the source shows once, in a line whose value is out of range (R63, conflict C2). That
its digits may be of either case, with leading zeros, is the model's choice (log 16). -/
def hexadecimal : Text → Option Int
  | '0' :: 'x' :: t => (unsignedNumber 16 t).map fun n => (n : Int)
  | _ => none

/-- The 16-bit field of an immediate or an offset: range-checked, then packed in two's complement,
never truncated (R63). -/
def packImm (v : Int) : Except AsmError (BitVec 16) :=
  if -32768 ≤ v ∧ v ≤ 32767 then .ok (BitVec.ofInt 16 v) else .error (.outOfRange v)

/-- The 5-bit field of a shift amount, 0 to 31 (R63). -/
def packShamt (v : Int) : Except AsmError Shamt :=
  if h : 0 ≤ v ∧ v ≤ 31 then .ok ⟨v.toNat, by omega⟩ else .error (.outOfRange v)

/-- A number token packed into a field: decimal is shown; a hexadecimal token is refused, for its
range where the range rule refuses it (D20, log 18) and as a form not shown otherwise (U11). -/
def numberArg {α : Type} (pack : Int → Except AsmError α) (t : Text) : Except AsmError α :=
  match decimal t with
  | some v => pack v
  | none =>
    match hexadecimal t with
    | some v =>
      match pack v with
      | .error e => .error e
      | .ok _ => .error (.notShown t)
    | none => .error (.notShown t)

/-! ## Labels (R64, R65) -/

/-- The line a label names: the first match in scan order over all lines (R64, R65). -/
def findLabel (ls : List Line) (target : Text) : Except AsmError Nat :=
  match ls.findIdx? fun l => l.label == some target with
  | some t => .ok t
  | none => .error (.unresolvedLabel target)

/-- The offset field of a branch at line `c` whose target is line `t`: `t - c - 1`, relative to the
instruction that follows the branch (R64). -/
def branchField (t c : Nat) : Except AsmError (BitVec 16) := packImm ((t : Int) - (c : Int) - 1)

/-! ## Lines to words (R61) -/

/-- `op d s imm`: destination, source, immediate (R61). Here and in the three forms below, that the
leftmost wrong operand is the one reported is the model's choice (log 16). -/
def immediateLine (op : Reg → Reg → BitVec 16 → Instr) (d s imm : Text) : Except AsmError Instr :=
  match findRegister d, findRegister s, numberArg packImm imm with
  | .ok d, .ok s, .ok v => .ok (op d s v)
  | .error e, _, _ => .error e
  | _, .error e, _ => .error e
  | _, _, .error e => .error e

/-- `op d s sh`: destination, source, shift amount; the unused field is 0 (R61, R48). -/
def shiftLine (op : Reg → Reg → Shamt → BitVec 5 → Instr) (d s sh : Text) : Except AsmError Instr :=
  match findRegister d, findRegister s, numberArg packShamt sh with
  | .ok d, .ok s, .ok v => .ok (op d s v 0#5)
  | .error e, _, _ => .error e
  | _, .error e, _ => .error e
  | _, _, .error e => .error e

/-- `add d s1 s2`: destination, first source, second source; `shamt` is 0 (R61, R47, decision D15,
log 19). -/
def addLine (d s1 s2 : Text) : Except AsmError Instr :=
  match findRegister d, findRegister s1, findRegister s2 with
  | .ok d, .ok a, .ok b => .ok (.add d a b 0#5)
  | .error e, _, _ => .error e
  | _, .error e, _ => .error e
  | _, _, .error e => .error e

/-- The offset field for a target label in a branch at line `c` (R64). -/
def targetField (ls : List Line) (c : Nat) (target : Text) : Except AsmError (BitVec 16) :=
  match findLabel ls target with
  | .error e => .error e
  | .ok t => branchField t c

/-- `op a b label`: the first register at bit offset 21, the second at 16 (R61, decision D15,
log 19). -/
def branchLine (op : Reg → Reg → BitVec 16 → Instr) (ls : List Line) (c : Nat)
    (a b target : Text) : Except AsmError Instr :=
  match findRegister a, findRegister b, targetField ls c target with
  | .ok a, .ok b, .ok o => .ok (op a b o)
  | .error e, _, _ => .error e
  | _, .error e, _ => .error e
  | _, _, .error e => .error e

/-- The instruction of a line of a given mnemonic. A line with another number of arguments than R61
gives is not shown. -/
def lineInstr (ls : List Line) (c : Nat) (k : Kind) (m : Text) (args : List Text) :
    Except AsmError Instr :=
  match k, args with
  | .nop, [] => .ok .nop
  | .addi, [d, s, i] => immediateLine .addi d s i
  | .andi, [d, s, i] => immediateLine .andi d s i
  | .add, [d, a, b] => addLine d a b
  | .srl, [d, s, n] => shiftLine .srl d s n
  | .sll, [d, s, n] => shiftLine .sll d s n
  | .beq, [a, b, l] => branchLine .beq ls c a b l
  | .bne, [a, b, l] => branchLine .bne ls c a b l
  | _, _ => .error (.notShown m)

/-- The instruction of line `c` among the lines `ls`: exactly one for each line, no
pseudo-instruction (R67). That an unknown opcode is reported before anything wrong in the arguments is
the model's choice (log 16). -/
def assembleLine (ls : List Line) (c : Nat) (l : Line) : Except AsmError Instr :=
  match findKind l.mnemonic with
  | .error e => .error e
  | .ok k => lineInstr ls c k l.mnemonic l.args

/-- The words of the lines from line `c` on; an error is fatal (R66). That the first in line order is
reported is the model's choice (log 16). -/
def assembleFrom (ls : List Line) (c : Nat) : List Line → Except AsmError (List Word)
  | [] => .ok []
  | l :: rest =>
    match assembleLine ls c l with
    | .error e => .error e
    | .ok i =>
      match assembleFrom ls (c + 1) rest with
      | .error e => .error e
      | .ok ws => .ok (encode i :: ws)

/-- The stream of a list of parsed lines. -/
def assembleLines (ls : List Line) : Except AsmError (List Word) := assembleFrom ls 0 ls

/-- The assembler: source lines to the instruction stream, or an error and no stream (R66). WHICH error,
where a source has several, the spec does not say (R3, R66). The model's choice (log 16, DESIGN
CHOICE): all lines are split before any is encoded, so a split error (a missing mnemonic, a label that
is not one token) of any line hides an encoding error of every line, of an earlier one too; within each
of the two passes the first error in line order is reported. -/
def assemble (src : List Text) : Except AsmError (List Word) :=
  match parseAll src with
  | .error e => .error e
  | .ok ls => assembleLines ls

end Sys2Proof.Asm
end

