-- ==== Sys2Proof/Machine/HostView.lean ====
section
/-! DEFINITION. What the host does to the block outside a run and what it sees of it
(70_reset_and_hazards.md R133 to R137, 10_state.md R29). No step uses these. -/

namespace Sys2Proof.Machine

/-- The host's load of a whole stream, before a run (R135). -/
def State.load (s : State) (m : Memory) : State := { s with imem := m }

/-- The reset event: from any state, running or halted, the state of R130 with the loaded stream
kept, the run in progress discarded (R133, decision D8, log 14). -/
def resetEvent (base : Word) (s : State) : State := State.resetAt base s.imem

/-- The observable result: all 32 registers and the PC, readable once the block has halted
(10_state.md R29, R136). -/
def observe (s : State) : Option (Vector Word 32 × Word) :=
  match s.status with
  | .halted => some (s.regs, s.pc)
  | .running => none

/-- The simulated address of word `i`, a label only (20_memory.md R37, R44). -/
def simulatedAddress (base : Word) (i : Int) : Word := base + wrap32 (4 * i)

/-- The output ports of the informative interface table (R137, decision D10, log 22). -/
structure Ports where
  /-- `imem_index`, valid while the block runs with its cursor inside the stream. -/
  imemIndex : Option Int
  /-- `halted`. -/
  halted : Bool
  /-- `reg_value[0..31]`. -/
  regValue : Vector Word 32
  /-- `pc_value`. -/
  pcValue : Word
  deriving DecidableEq, Repr

/-- The values of the output ports in a state (R137). -/
def ports (s : State) : Ports where
  imemIndex :=
    if s.status = .running ∧ 0 ≤ s.idx ∧ s.idx < s.imem.size then some s.idx else none
  halted := s.status == .halted
  regValue := s.regs
  pcValue := s.pc

end Sys2Proof.Machine
end

