-- ==== Sys2Proof/Safety.lean ====
section
/-! DEFINITION. The terms in which claims about steps and runs are stated: what a state is about to
execute, the count of taken branches, the alignment invariant, and runs that never
stop with a fault. -/

namespace Sys2Proof.Machine

/-- The next step fetches the word `w` (20_memory.md R31). -/
def State.AtWord (s : State) (w : Word) : Prop :=
  s.status = .running ∧ 0 ≤ s.idx ∧ s.imem[s.idx.toNat]? = some w

/-- The next step executes the instruction `i`. -/
def State.AtInstr (s : State) (i : Instr) : Prop := ∃ w, s.AtWord w ∧ decode w = .ok i

/-- A normal step from `s` to `t` with destination `d`, if it has one: every register but the
destination stays, the cursor moves by one, the PC by 4 modulo 2^32, status and stream stay
(10_state.md R19, 40_immediate_arith.md R72, 41_register_arith_shift.md R83). What the destination
then holds is not said here. -/
def NormalStep (d : Option Reg) (s t : State) : Prop :=
  (∀ r, d ≠ some r → t.reg r = s.reg r) ∧ t.idx = s.idx + 1 ∧
    t.pc.toNat = (s.pc.toNat + 4) % 2 ^ 32 ∧ t.status = s.status ∧ t.imem = s.imem

/-- A taken branch with offset `o` from `s` to `t`: no register changes, the cursor moves by `o + 1`
without wrap, the PC by `4*o` modulo 2^32 (10_state.md R19, 42_branch.md R90). -/
def TakenStep (o : Int) (s t : State) : Prop :=
  (∀ r, t.reg r = s.reg r) ∧ t.idx = s.idx + o + 1 ∧
    (t.pc.toNat : Int) = ((s.pc.toNat : Int) + 4 * o) % 2 ^ 32 ∧
    t.status = s.status ∧ t.imem = s.imem

/-- A halting step from `s` to `t`: the status becomes `Halted` and nothing else changes
(60_exceptions.md R114). -/
def HaltStep (s t : State) : Prop :=
  (∀ r, t.reg r = s.reg r) ∧ t.idx = s.idx ∧ t.pc = s.pc ∧ t.status = .halted ∧ t.imem = s.imem

/-- The integer a 16-bit field denotes, as the notation of 00_scope.md spells `signed(v)`. -/
def signedValue (v : BitVec 16) : Int :=
  if v.toNat < 32768 then (v.toNat : Int) else (v.toNat : Int) - 65536

/-- Whether an instruction is a branch that the state takes (00_scope.md, glossary: a `beq` whose two
registers are equal or a `bne` whose two registers differ). -/
def branchHolds (i : Instr) (s : State) : Bool :=
  match i with
  | .nop => false
  | .addi _ _ _ => false
  | .andi _ _ _ => false
  | .add _ _ _ _ => false
  | .srl _ _ _ _ => false
  | .sll _ _ _ _ => false
  | .beq rs rt _ => s.reg rs == s.reg rt
  | .bne rs rt _ => s.reg rs != s.reg rt

/-- Whether the next step is a taken branch. -/
def State.branchTaken (s : State) : Bool :=
  match s.status with
  | .halted => false
  | .running =>
    match s.fetch with
    | .endOfStream => false
    | .beforeStart => false
    | .word w =>
      match decode w with
      | .ok i => branchHolds i s
      | .error _ => false

/-- `T`: the number of taken branches in the first `k` steps from a state (10_state.md R20). It is a
quantity of the run and no state of the hardware. -/
def takenBranches : Nat → State → Nat
  | 0, _ => 0
  | k + 1, s =>
    (if s.branchTaken then 1 else 0) +
      match step s with
      | .next t => takenBranches k t
      | .fault _ => 0
      | .refused _ => 0

/-- The PC differs from the base by a multiple of 4 (10_state.md R21). Since 4 divides 2^32, the
remainders modulo 4 say it. -/
def State.PcAligned (base : Word) (s : State) : Prop := s.pc.toNat % 4 = base.toNat % 4

/-- Two states that differ at most in the PC (10_state.md R17). -/
def SameButPc (s t : State) : Prop :=
  s.regs = t.regs ∧ s.idx = t.idx ∧ s.status = t.status ∧ s.imem = t.imem

/-- No run from the state ends in a fault or a refusal. -/
def NeverStops (s : State) : Prop := ∀ k, ∃ t, Sys2Proof.core.run k s = .next t

/-- Every branch of a stream, wherever it stands, has its target inside the stream
(30_encoding.md R64). -/
def BranchesStayInside (m : Memory) : Prop :=
  ∀ (c : Nat) (w : Word) (i : Instr) (o : BitVec 16),
    m[c]? = some w → decode w = .ok i → i.offset = some o →
      0 ≤ (c : Int) + signed16 o + 1 ∧ (c : Int) + signed16 o + 1 < m.size

/-- Every branch of a stream goes forward, so no word is executed twice. -/
def BranchesGoForward (m : Memory) : Prop :=
  ∀ (w : Word) (i : Instr) (o : BitVec 16),
    w ∈ m → decode w = .ok i → i.offset = some o → 0 ≤ signed16 o

end Sys2Proof.Machine
end

