-- ==== Sys2Proof/Certificates/Slice0/Obligations.lean ====
section
/-! DEFINITION. The statements for the provers. A docstring that says "model's choice" or "the spec's
own decision" names the log entry or the decision that a clause rests on. -/

open Sys2Proof Sys2Proof.Machine

/-! ## Reset and entry -/

/-- 10_state.md R15, R16: for every PC_BASE and every stream, every register is 0 after reset and the
PC is PC_BASE. -/
def Obligations.ResetClearsRegistersAndSetsPc : Prop :=
  ∀ (base : Word) (m : Memory),
    (∀ r, (State.resetAt base m).reg r = 0x00000000#32) ∧ (State.resetAt base m).pc = base

/-- 70_reset_and_hazards.md, section 1 (R130, R133; the spec's own decision D8 joins reset into one
event): cursor 0, Running, and the reset event gives that state from any state. The last clause is
the model's choice: `State.reset` has no stream loaded (log 3) and PC_BASE at the model's value
(log 1). -/
def Obligations.ResetEventStartsRunningAtIndexZero : Prop :=
  ∀ (base : Word) (s : State),
    (resetEvent base s).idx = 0 ∧ (resetEvent base s).status = .running ∧
      (resetEvent base s).imem = s.imem ∧ (resetEvent base s).pc = base ∧
      (∀ r, (resetEvent base s).reg r = 0#32) ∧
      State.reset = State.resetAt Config.pcBase []

/-- 70_reset_and_hazards.md R131: the first instruction executed is `IMem[0]`, at simulated address
PC_BASE; with an empty stream or the sentinel first, the first step halts in the reset state. -/
def Obligations.EntryExecutesWordZeroOrHaltsAtOnce : Prop :=
  ∀ (base : Word) (m : Memory),
    (State.resetAt base m).pc = simulatedAddress base 0 ∧
    (∀ w, m[0]? = some w → w ≠ 0x00000000#32 →
      step (State.resetAt base m) = stepWord w (State.resetAt base m)) ∧
    ((m = [] ∨ m[0]? = some 0x00000000#32) →
      ∃ t, step (State.resetAt base m) = .next t ∧ HaltStep (State.resetAt base m) t)

/-! ## The step -/

/-- 43_step_sentinel_unmatched.md, section 1 (R100): when the word at the cursor decodes to `i`, the
step is `exec i`, and nothing is added after it. The order of the tests is the spec's own decision
(D13, D16). -/
def Obligations.StepRunsTheDecodedInstruction : Prop :=
  ∀ (s : State) (i : Instr), s.AtInstr i → step s = exec i s

/-- The sentinel, 43_step_sentinel_unmatched.md R101: the all-zero word and no other decodes to
`nop`, which changes the status and nothing else. -/
def Obligations.SentinelHaltsAndChangesNothingElse : Prop :=
  (∀ w, decode w = .ok .nop ↔ w &&& 0xFFFFFFFF#32 = 0x00000000#32) ∧
  (∀ s, ∃ t, exec .nop s = .next t ∧ HaltStep s t) ∧
  (∀ s : State, s.AtWord 0x00000000#32 → ∃ t, step s = .next t ∧ HaltStep s t)

/-- 43_step_sentinel_unmatched.md R102: a running block with `idx >= N`, however far, halts without a
fetch, and nothing but the status changes. -/
def Obligations.EndOfStreamHaltsWithoutFetching : Prop :=
  ∀ s : State, s.status = .running → (s.imem.length : Int) ≤ s.idx →
    (∀ w, s.fetch ≠ .word w) ∧ ∃ t, step s = .next t ∧ HaltStep s t

/-- 43_step_sentinel_unmatched.md R103: a fetched word that matches no row of the table executes as a
no-op step that writes no register; no assembled stream contains such a word. -/
def Obligations.UnmatchedWordIsANoOpStep : Prop :=
  (∀ (s : State) (w : Word), s.AtWord w → (∀ row ∈ opcodeTable, row.matches w = false) →
    ∃ t, step s = .next t ∧ NormalStep none s t ∧ t.status = .running) ∧
  (∀ (src : List Asm.Text) (ws : List Word), Asm.assemble src = .ok ws →
    ∀ w ∈ ws, ∃ row ∈ opcodeTable, row.matches w = true)

/-- A halted block takes no further step (10_state.md, section 4; the spec's own decision D8). That
the step answers the same state again is the model's choice (log 7). -/
def Obligations.HaltedBlockNeverChanges : Prop :=
  ∀ s : State, s.status = .halted → ∀ k, Sys2Proof.core.run k s = .next s

/-- The model-level fault of 42_branch.md, "Control transfer in general" (the spec's own decision D7,
log 6): a running block with a cursor below 0 has no next state, and this is the only stop of the
machine: no step is refused. That the step of a halted block answers a next state is the model's choice
(log 7, DEDUCED); the hardware takes no step there. -/
def Obligations.StepFaultsExactlyOnACursorBeforeStart : Prop :=
  ∀ s : State,
    (step s = .fault .cursorBeforeStart ↔ s.status = .running ∧ s.idx < 0) ∧
    ((s.status = .halted ∨ 0 ≤ s.idx) → ∃ t, step s = .next t)

/-- No word raises an exception, in any state (60_exceptions.md, section 1): every word runs to a next
state, with the stream as it was. -/
def Obligations.EveryWordRunsToANextState : Prop :=
  ∀ (w : Word) (s : State), ∃ t, stepWord w s = .next t ∧ t.imem = s.imem ∧
    (t.status = s.status ∨ t.status = .halted)

/-! ## The seven executing instructions -/

/-- `addi` (40_immediate_arith.md, addi). The wrap modulo 2^32 is the spec's own decision D6
(log 9). -/
def Obligations.AddiWritesSumWithSignExtendedImmediate : Prop :=
  ∀ (s : State) (rt rs : Reg) (imm : BitVec 16),
    ∃ t, exec (.addi rt rs imm) s = .next t ∧ NormalStep (some rt) s t ∧
      ((t.reg rt).toNat : Int) = ((s.reg rs).toNat + signedValue imm) % 2 ^ 32

/-- `andi` (40_immediate_arith.md, andi): the immediate is zero-extended, so bits 31:16 of the result
are 0. PC arithmetic modulo 2^32 is the spec's own decision D6 (log 9). -/
def Obligations.AndiKeepsTheLowHalfUnderTheImmediate : Prop :=
  ∀ (s : State) (rt rs : Reg) (imm : BitVec 16),
    ∃ t, exec (.andi rt rs imm) s = .next t ∧ NormalStep (some rt) s t ∧
      ∀ k, (t.reg rt).getLsbD k = (decide (k < 16) && ((s.reg rs).getLsbD k && imm.getLsbD k))

/-- `add` (41_register_arith_shift.md, add), whatever its ignored bits hold (the spec's own decisions
D6 and D12, logs 9 and 12). -/
def Obligations.AddWritesSumOfTwoRegisters : Prop :=
  ∀ (s : State) (rd rs rt : Reg) (unused : BitVec 5),
    ∃ t, exec (.add rd rs rt unused) s = .next t ∧ NormalStep (some rd) s t ∧
      (t.reg rd).toNat = ((s.reg rs).toNat + (s.reg rt).toNat) % 2 ^ 32

/-- `srl` (41_register_arith_shift.md, srl), whatever its ignored bits hold (the spec's own decision
D12, log 12). -/
def Obligations.SrlDividesByAPowerOfTwo : Prop :=
  ∀ (s : State) (rd rs : Reg) (shamt : Shamt) (unused : BitVec 5),
    ∃ t, exec (.srl rd rs shamt unused) s = .next t ∧ NormalStep (some rd) s t ∧
      (t.reg rd).toNat = (s.reg rs).toNat / 2 ^ shamt.val

/-- `sll` (41_register_arith_shift.md, sll), whatever its ignored bits hold (the spec's own decisions
D6 and D12, logs 9 and 12). -/
def Obligations.SllMultipliesByAPowerOfTwo : Prop :=
  ∀ (s : State) (rd rs : Reg) (shamt : Shamt) (unused : BitVec 5),
    ∃ t, exec (.sll rd rs shamt unused) s = .next t ∧ NormalStep (some rd) s t ∧
      (t.reg rd).toNat = (s.reg rs).toNat * 2 ^ shamt.val % 2 ^ 32

/-- `beq` (42_branch.md, beq). That a taken branch adds `4*o` to the PC, and not `4*(o+1)`, is the
resolution of conflict C1 (90_conflicts.md, decision D5, log 8). -/
def Obligations.BeqMovesCursorWhenEqual : Prop :=
  ∀ (s : State) (rs rt : Reg) (offset : BitVec 16),
    ∃ t, exec (.beq rs rt offset) s = .next t ∧
      (s.reg rs = s.reg rt → TakenStep (signedValue offset) s t) ∧
      (s.reg rs ≠ s.reg rt → NormalStep none s t)

/-- `bne` (42_branch.md, bne); the PC as for `beq` (conflict C1, decision D5, log 8). -/
def Obligations.BneMovesCursorWhenDifferent : Prop :=
  ∀ (s : State) (rs rt : Reg) (offset : BitVec 16),
    ∃ t, exec (.bne rs rt offset) s = .next t ∧
      (s.reg rs ≠ s.reg rt → TakenStep (signedValue offset) s t) ∧
      (s.reg rs = s.reg rt → NormalStep none s t)

/-! ## Registers -/

/-- 10_state.md R12: only the named destination is written, by an instruction and by a step, and
nothing but the named sources is read. -/
def Obligations.OnlyNamedRegistersAreWrittenAndRead : Prop :=
  (∀ (i : Instr) (s t : State), exec i s = .next t →
    ∀ r, i.dest ≠ some r → t.reg r = s.reg r) ∧
  (∀ s t : State, step s = .next t → ∀ r, t.reg r ≠ s.reg r →
    ∃ i, s.AtInstr i ∧ i.dest = some r) ∧
  (∀ (i : Instr) (s s' t : State), exec i s = .next t →
    (∀ r ∈ i.sources, s'.reg r = s.reg r) → s'.pc = s.pc → s'.idx = s.idx →
    s'.status = s.status → ∃ t', exec i s' = .next t' ∧ t'.pc = t.pc ∧ t'.idx = t.idx ∧
      t'.status = t.status ∧ ∀ r, i.dest = some r → t'.reg r = t.reg r)

/-- Sources are read before the destination is written (10_state.md R13), in the forms whose destination
is also a source: the result is computed from the old value, and `addi` of 5 twice, first from a
register that holds 0, gives 10. The results are those of R70, R71 and R80 to R82; the wrap modulo 2^32
of `addi`, `add` and `sll` is the spec's own decision D6 (log 9), and that the ignored bits of `add`,
`srl` and `sll` may hold anything is its decision D12 (log 12). The other forms are in the statements
of each instruction above. -/
def Obligations.SourcesAreReadBeforeTheDestinationIsWritten : Prop :=
  (∀ (s : State) (r q : Reg) (imm : BitVec 16) (n : Shamt) (u : BitVec 5),
    (∃ t, exec (.addi r r imm) s = .next t ∧ t.reg r = s.reg r + imm.signExtend 32) ∧
    (∃ t, exec (.andi r r imm) s = .next t ∧ t.reg r = s.reg r &&& imm.setWidth 32) ∧
    (∃ t, exec (.add r r q u) s = .next t ∧ t.reg r = s.reg r + s.reg q) ∧
    (∃ t, exec (.add r q r u) s = .next t ∧ t.reg r = s.reg q + s.reg r) ∧
    (∃ t, exec (.add r r r u) s = .next t ∧ t.reg r = s.reg r + s.reg r) ∧
    (∃ t, exec (.srl r r n u) s = .next t ∧ t.reg r = s.reg r >>> n.val) ∧
    (∃ t, exec (.sll r r n u) s = .next t ∧ t.reg r = s.reg r <<< n.val)) ∧
  (∀ (s : State) (r z : Reg), s.reg z = 0#32 →
    ∃ t u, exec (.addi r z 5#16) s = .next t ∧ exec (.addi r r 5#16) t = .next u ∧
      u.reg r = 10#32)

/-- Register 0 is an ordinary register (10_state.md, section 2; the spec's own decision D4, log 10):
every writing instruction writes it, and the example word `addi $zero $zero 5` leaves 5 in it. The
wrap modulo 2^32 is decision D6 (log 9), the ignored bits are decision D12 (log 12) and the number of
the word is decision D1 (log 2). -/
def Obligations.RegisterZeroKeepsWhatIsWritten : Prop :=
  (∀ (s : State) (rs : Reg) (imm : BitVec 16),
    ∃ t, exec (.addi 0 rs imm) s = .next t ∧ t.reg 0 = s.reg rs + imm.signExtend 32) ∧
  (∀ (s : State) (rs : Reg) (imm : BitVec 16),
    ∃ t, exec (.andi 0 rs imm) s = .next t ∧ t.reg 0 = s.reg rs &&& imm.zeroExtend 32) ∧
  (∀ (s : State) (rs rt : Reg) (unused : BitVec 5),
    ∃ t, exec (.add 0 rs rt unused) s = .next t ∧ t.reg 0 = s.reg rs + s.reg rt) ∧
  (∀ (s : State) (rs : Reg) (shamt : Shamt) (unused : BitVec 5),
    ∃ t, exec (.srl 0 rs shamt unused) s = .next t ∧ t.reg 0 = s.reg rs >>> shamt.val) ∧
  (∀ (s : State) (rs : Reg) (shamt : Shamt) (unused : BitVec 5),
    ∃ t, exec (.sll 0 rs shamt unused) s = .next t ∧ t.reg 0 = s.reg rs <<< shamt.val) ∧
  (∀ base : Word, ∃ t, step (State.resetAt base [0x20000005#32]) = .next t ∧ t.reg 0 = 5#32)

/-! ## Cursor, PC, status, stream -/

/-- How each kind of step changes cursor and PC (10_state.md, section 3, the table of R19, with the
taken branch as conflict C1 resolves it, decision D5, log 8): they stay and the block is halted, they
move by one instruction, or the step is a taken branch and they move by `o + 1` and `4*o`. -/
def Obligations.CursorAndPcMoveByTheTable : Prop :=
  ∀ s t : State, step s = .next t →
    (t.idx = s.idx ∧ t.pc = s.pc ∧ t.status = .halted) ∨
    (s.branchTaken = false ∧ t.idx = s.idx + 1 ∧ t.pc.toNat = (s.pc.toNat + 4) % 2 ^ 32 ∧
      t.status = .running) ∨
    (s.branchTaken = true ∧ ∃ i o, s.AtInstr i ∧ i.offset = some o ∧
      TakenStep (signedValue o) s t ∧ t.status = .running)

/-- The relation of PC and cursor (10_state.md, section 3, derived there from R16, R18 and R19): along
every run the PC follows the cursor, less 4 for each taken branch; from reset it is
`PC_BASE + 4*idx - 4*T` modulo 2^32. It rests on the resolution of conflict C1 (log 8). -/
def Obligations.PcFollowsCursorLessTakenBranches : Prop :=
  (∀ (k : Nat) (s t : State), Sys2Proof.core.run k s = .next t →
    (t.pc.toNat : Int) =
      (s.pc.toNat + 4 * (t.idx - s.idx) - 4 * (takenBranches k s : Int)) % 2 ^ 32) ∧
  (∀ (base : Word) (m : Memory) (k : Nat) (t : State),
    Sys2Proof.core.run k (State.resetAt base m) = .next t →
    (t.pc.toNat : Int) =
      (base.toNat + 4 * t.idx - 4 * (takenBranches k (State.resetAt base m) : Int)) % 2 ^ 32)

/-- Every step keeps the PC a multiple of 4 away from the base (10_state.md, section 3, R21, derived
there from R19). -/
def Obligations.StepKeepsPcAligned : Prop :=
  ∀ (base : Word) (s t : State), s.PcAligned base → step s = .next t → t.PcAligned base

/-- The alignment invariant holds at reset, for every base. -/
def Obligations.ResetIsPcAligned : Prop :=
  ∀ (base : Word) (m : Memory), (State.resetAt base m).PcAligned base

/-- Nothing reads the PC (10_state.md, section 3, R17 and the consequence derived there): two runs
from states that differ at most in the PC agree in everything else, for any number of steps, whether
they go on or stop. -/
def Obligations.PcIsReadByNothing : Prop :=
  ∀ s t : State, SameButPc s t → ∀ k,
    (∀ s', Sys2Proof.core.run k s = .next s' →
      ∃ t', Sys2Proof.core.run k t = .next t' ∧ SameButPc s' t') ∧
    (∀ f, Sys2Proof.core.run k s = .fault f → Sys2Proof.core.run k t = .fault f)

/-- 20_memory.md R32: the stream is read-only during a run, for every start state and every number of
steps. -/
def Obligations.StreamIsConstantDuringARun : Prop :=
  ∀ (k : Nat) (s t : State), Sys2Proof.core.run k s = .next t → t.imem = s.imem

/-- A run ends by exactly two events, the sentinel and the end of the stream
(43_step_sentinel_unmatched.md, section 5; 60_exceptions.md, section 4, decision D17): a step of a
running block halts it just then, and the halting step changes nothing else. -/
def Obligations.RunEndsOnlyAtSentinelOrEndOfStream : Prop :=
  ∀ s t : State, s.status = .running → step s = .next t →
    (t.status = .halted ↔ s.AtWord 0x00000000#32 ∨ (s.imem.length : Int) ≤ s.idx) ∧
    (t.status = .halted → HaltStep s t)

/-! ## Control transfer -/

/-- No delay slot (42_branch.md, "Control transfer in general", R92): after a taken branch the next
step executes the instruction at the target, and the one after the branch has no part in it. -/
def Obligations.TakenBranchIsFollowedByItsTarget : Prop :=
  ∀ (s : State) (i j : Instr) (o : BitVec 16) (w : Word),
    s.AtInstr i → i.offset = some o → s.branchTaken = true →
    0 ≤ s.idx + signedValue o + 1 →
    s.imem[(s.idx + signedValue o + 1).toNat]? = some w → decode w = .ok j →
    ∃ t, step s = .next t ∧ t.idx = s.idx + signedValue o + 1 ∧
      Sys2Proof.core.run 2 s = exec j t

/-- Targets outside the stream (42_branch.md, "Control transfer in general", R93): the branch itself
completes; past the end the next step halts, before the start it has no next state (the spec's own
decision D7, log 6). -/
def Obligations.TargetOutsideTheStreamEndsTheRun : Prop :=
  ∀ (s : State) (i : Instr) (o : BitVec 16),
    s.AtInstr i → i.offset = some o → s.branchTaken = true →
    ((s.imem.length : Int) ≤ s.idx + signedValue o + 1 →
      ∃ t, Sys2Proof.core.run 2 s = .next t ∧ t.status = .halted ∧
        t.idx = s.idx + signedValue o + 1) ∧
    (s.idx + signedValue o + 1 < 0 →
      (∃ t, step s = .next t ∧ t.idx = s.idx + signedValue o + 1) ∧
      Sys2Proof.core.run 2 s = .fault .cursorBeforeStart)

/-- Loops may never end (42_branch.md, "Control transfer in general", R95): a branch onto itself runs
for every number of steps with its cursor in place, the PC falling by 4 each time (conflict C1,
log 8). -/
def Obligations.BranchOntoItselfNeverEnds : Prop :=
  ∀ (s : State) (r : Reg) (o : BitVec 16), signedValue o = -1 → s.AtInstr (.beq r r o) → ∀ k : Nat,
    ∃ t, Sys2Proof.core.run k s = .next t ∧ t.status = .running ∧ t.idx = s.idx ∧
      (∀ q, t.reg q = s.reg q) ∧ (t.pc.toNat : Int) = (s.pc.toNat - 4 * (k : Int)) % 2 ^ 32

/-- A stream whose branches all go forward ends: from any cursor that is not below 0, within one step
for each word ahead and one more (derived from the step and the cursor table, R100, R102, R19). -/
def Obligations.ForwardStreamsTerminate : Prop :=
  ∀ s : State, 0 ≤ s.idx → BranchesGoForward s.imem →
    ∃ k t, k ≤ ((s.imem.length : Int) - s.idx).toNat + 1 ∧
      Sys2Proof.core.run k s = .next t ∧ t.status = .halted

/-- A stream whose branches all stay inside keeps the cursor from ever falling below 0: the step keeps
both facts, so no such run faults (42_branch.md, "Control transfer in general"). -/
def Obligations.BranchesInsideKeepTheCursorFromTheStart : Prop :=
  ∀ s t : State, BranchesStayInside s.imem ∧ 0 ≤ s.idx → step s = .next t →
    BranchesStayInside t.imem ∧ 0 ≤ t.idx

/-! ## Encoding -/

/-- The fields of 30_encoding.md R46 and the values of R52 (the spec's own decisions D1 and D12,
logs 2 and 12): a word with the `op`, and for R-type the `funct`, of a mnemonic decodes to it, with
each operand from its own bits, whatever the ignored bits hold. -/
def Obligations.DecoderReadsEveryFieldFromItsBits : Prop :=
  ∀ w : Word,
    (w.toNat / 2 ^ 26 = 0x08 → ∃ rt rs imm, decode w = .ok (.addi rt rs imm) ∧
      rt.val = w.toNat / 2 ^ 16 % 32 ∧ rs.val = w.toNat / 2 ^ 21 % 32 ∧
      imm.toNat = w.toNat % 2 ^ 16) ∧
    (w.toNat / 2 ^ 26 = 0x0C → ∃ rt rs imm, decode w = .ok (.andi rt rs imm) ∧
      rt.val = w.toNat / 2 ^ 16 % 32 ∧ rs.val = w.toNat / 2 ^ 21 % 32 ∧
      imm.toNat = w.toNat % 2 ^ 16) ∧
    (w.toNat / 2 ^ 26 = 0x00 ∧ w.toNat % 2 ^ 6 = 0x20 →
      ∃ rd rs rt u, decode w = .ok (.add rd rs rt u) ∧
        rd.val = w.toNat / 2 ^ 11 % 32 ∧ rs.val = w.toNat / 2 ^ 21 % 32 ∧
        rt.val = w.toNat / 2 ^ 16 % 32) ∧
    (w.toNat / 2 ^ 26 = 0x00 ∧ w.toNat % 2 ^ 6 = 0x02 →
      ∃ rd rs shamt u, decode w = .ok (.srl rd rs shamt u) ∧
        rd.val = w.toNat / 2 ^ 11 % 32 ∧ rs.val = w.toNat / 2 ^ 21 % 32 ∧
        shamt.val = w.toNat / 2 ^ 6 % 32) ∧
    (w.toNat ≠ 0 ∧ w.toNat / 2 ^ 26 = 0x00 ∧ w.toNat % 2 ^ 6 = 0x00 →
      ∃ rd rs shamt u, decode w = .ok (.sll rd rs shamt u) ∧
        rd.val = w.toNat / 2 ^ 11 % 32 ∧ rs.val = w.toNat / 2 ^ 21 % 32 ∧
        shamt.val = w.toNat / 2 ^ 6 % 32) ∧
    (w.toNat / 2 ^ 26 = 0x04 → ∃ rs rt offset, decode w = .ok (.beq rs rt offset) ∧
      rs.val = w.toNat / 2 ^ 21 % 32 ∧ rt.val = w.toNat / 2 ^ 16 % 32 ∧
      offset.toNat = w.toNat % 2 ^ 16) ∧
    (w.toNat / 2 ^ 26 = 0x05 → ∃ rs rt offset, decode w = .ok (.bne rs rt offset) ∧
      rs.val = w.toNat / 2 ^ 21 % 32 ∧ rt.val = w.toNat / 2 ^ 16 % 32 ∧
      offset.toNat = w.toNat % 2 ^ 16)

/-- Which words match no row (30_encoding.md, section 4, the list derived there in R56 from R53 and
decision D1, log 2): every other `op`, and every other `funct` under `op = 0`. -/
def Obligations.UnmatchedWordsAreExactlyTheListedOnes : Prop :=
  ∀ w : Word, decode w = .error (.unmatchedWord w) ↔
    (w.toNat / 2 ^ 26 ∉ [0x00, 0x04, 0x05, 0x08, 0x0C] ∨
      (w.toNat / 2 ^ 26 = 0x00 ∧ w.toNat % 2 ^ 6 ∉ [0x00, 0x02, 0x20]))

/-- The example words of 30_encoding.md, section 6, and three unmatched ones (decisions D1 and D2,
logs 2 and 15). -/
def Obligations.ExampleWordsDecode : Prop :=
  decode 0x20080005#32 = .ok (.addi 8 0 0x0005#16) ∧
  decode 0x21080005#32 = .ok (.addi 8 8 0x0005#16) ∧
  decode 0x3009FFFF#32 = .ok (.andi 9 0 0xFFFF#16) ∧
  decode 0x01095020#32 = .ok (.add 10 8 9 0#5) ∧
  decode 0x01205100#32 = .ok (.sll 10 9 4 0#5) ∧
  decode 0x01205042#32 = .ok (.srl 10 9 1 0#5) ∧
  decode 0x11090001#32 = .ok (.beq 8 9 0x0001#16) ∧
  decode 0x1500FFFD#32 = .ok (.bne 8 0 0xFFFD#16) ∧
  decode 0x00000000#32 = .ok .nop ∧
  decode 0x08000000#32 = .error (.unmatchedWord 0x08000000#32) ∧
  decode 0x00004001#32 = .error (.unmatchedWord 0x00004001#32) ∧
  decode 0xFFFFFFFF#32 = .error (.unmatchedWord 0xFFFFFFFF#32)

/-- The round trip (30_encoding.md, section 4): decoding the word of a well-formed instruction gives
it back, with every operand at every value; the one exception is `sll $zero $zero 0`, whose word is
the sentinel (derived there from R54). -/
def Obligations.DecodeOfEncodeIsTheInstruction : Prop :=
  (∀ i : Instr, i.wf = true → decode (encode i) = .ok i) ∧
  (∀ i : Instr, i.wf = false → i = .sll 0 0 0 0#5 ∧ decode (encode i) = .ok .nop)

/-- The other direction: a word that decodes is the word of its instruction, bit for bit, and the
instruction is well-formed (30_encoding.md, sections 1 and 2). That `Instr` holds the ignored bits is
the model's choice (log 12). -/
def Obligations.EncodeOfDecodeIsTheWord : Prop :=
  ∀ (w : Word) (i : Instr), decode w = .ok i → i.wf = true ∧ encode i = w

/-- The rows of the table exclude each other but for the sentinel and `sll`, which share the all-zero
word only (30_encoding.md, section 2, R54; decisions D1 and D13, logs 2 and 11). -/
def Obligations.RowsExcludeEachOtherButForTheSentinel : Prop :=
  ∀ (w : Word) (a b : Row), a ∈ opcodeTable → b ∈ opcodeTable → a ≠ b →
    a.matches w = true → b.matches w = true →
    w = 0x00000000#32 ∧ ((a.kind = .nop ∧ b.kind = .sll) ∨ (a.kind = .sll ∧ b.kind = .nop))

/-- The host's placing of one instruction (model's choice, log 21): the very next step fetches exactly
that word and runs what it decodes to, and registers and PC are untouched by the placing. -/
def Obligations.PlacedInstructionIsTheNextOneRun : Prop :=
  ∀ (s : State) (nbits w : Nat) (i : Instr), decodeTableWord nbits w = some i →
    (s.withFetchWord nbits w).AtInstr i ∧
    step (s.withFetchWord nbits w) = exec i (s.withFetchWord nbits w) ∧
    (s.withFetchWord nbits w).pc = s.pc ∧ ∀ r, (s.withFetchWord nbits w).reg r = s.reg r

/-- The observable result is the registers and the PC, and only of a halted block (10_state.md,
section 8, R29; 70_reset_and_hazards.md, section 2, R136). -/
def Obligations.ResultIsObservableOnlyAfterTheHalt : Prop :=
  ∀ (s : State), (s.status = .running → observe s = none) ∧
    (s.status = .halted → ∃ x, observe s = some (x, s.pc) ∧ ∀ r, x.get r = s.reg r)

/-! ## The assembler -/

/-- Register operands (30_encoding.md, section 5, R62; the names are decision D2, log 15): each of the
32 names gives its own index, and every other token is an unknown register. -/
def Obligations.RegisterNamesGiveTheirIndices : Prop :=
  (∀ r : Reg, Asm.findRegister (Asm.registerName r) = .ok r) ∧
  (∀ t : Asm.Text, (∀ r, Asm.registerName r ≠ t) →
    Asm.findRegister t = .error (.unknownRegister t))

/-- Immediates, offsets and shift amounts (30_encoding.md, section 5, R63): in range they are packed
without loss, a negative one as `v + 65536`; out of range they are errors, never truncated. -/
def Obligations.FieldsAreRangeCheckedNeverTruncated : Prop :=
  ∀ v : Int,
    (-32768 ≤ v ∧ v ≤ 32767 → ∃ f, Asm.packImm v = .ok f ∧ signedValue f = v ∧
      (f.toNat : Int) = if v < 0 then v + 65536 else v) ∧
    (¬ (-32768 ≤ v ∧ v ≤ 32767) → Asm.packImm v = .error (.outOfRange v)) ∧
    (0 ≤ v ∧ v ≤ 31 → ∃ n, Asm.packShamt v = .ok n ∧ (n.val : Int) = v) ∧
    (¬ (0 ≤ v ∧ v ≤ 31) → Asm.packShamt v = .error (.outOfRange v))

/-- 30_encoding.md R65: of several lines with the same label text, a branch resolves to the first in
scan order over all lines. -/
def Obligations.DuplicateLabelsResolveToTheFirst : Prop :=
  ∀ (ls : List Asm.Line) (target : Asm.Text) (t : Nat),
    Asm.findLabel ls target = .ok t ↔
      (∃ l, ls[t]? = some l ∧ l.label = some target) ∧
      ∀ j l, j < t → ls[j]? = some l → l.label ≠ some target

/-- One word for each line, at the same index, or no stream at all (30_encoding.md, sections 1 and 5,
R45, R66, R67). -/
def Obligations.AssemblyIsOneWordPerLineOrNothing : Prop :=
  (∀ (src : List Asm.Text) (ws : List Word), Asm.assemble src = .ok ws →
    ws.length = src.length) ∧
  (∀ (ls : List Asm.Line) (ws : List Word), Asm.assembleLines ls = .ok ws ↔
    ws.length = ls.length ∧ ∀ (c : Nat) (l : Asm.Line), ls[c]? = some l →
      ∃ i, Asm.assembleLine ls c l = .ok i ∧ ws[c]? = some (encode i))

/-- A taken branch of an assembled stream continues at the labelled line itself (30_encoding.md,
section 5, R64, derived there with R90; conflict C4), for `beq` and `bne` alike. -/
def Obligations.AssembledBranchContinuesAtItsLabel : Prop :=
  ∀ (ls : List Asm.Line) (ws : List Word) (c t : Nat) (l : Asm.Line) (a b target : Asm.Text)
    (s : State),
    Asm.assembleLines ls = .ok ws → ls[c]? = some l →
    (l.mnemonic = Asm.mnemonicOf .beq ∨ l.mnemonic = Asm.mnemonicOf .bne) →
    l.args = [a, b, target] → Asm.findLabel ls target = .ok t →
    s.status = .running → s.imem = ws → s.idx = (c : Int) → s.branchTaken = true →
    ∃ u, step s = .next u ∧ u.idx = (t : Int) ∧ t < ws.length

/-- An assembled stream never stops with a fault or a refusal, from any cursor that is not below 0,
with any registers, PC and status; from reset in particular (30_encoding.md, section 5, R64 and R66;
42_branch.md, "Control transfer in general", R93). That a halted block's step answers the same state, so
that a run may start halted and go on past the halt, is the model's choice (log 7, DEDUCED). -/
def Obligations.AssembledStreamsNeverStop : Prop :=
  ∀ (src : List Asm.Text) (ws : List Word), Asm.assemble src = .ok ws →
    (∀ s : State, s.imem = ws → 0 ≤ s.idx → NeverStops s) ∧
    (∀ base : Word, NeverStops (State.resetAt base ws))
end

