-- ==== Sys2Proof/Laws/State.lean ====
section
/-! SUPPORT. One lemma for each field of the state under each update of it, and the laws of the
register file. -/

namespace Sys2Proof.Machine

/-! ## The register file -/

@[simp] theorem State.reg_setReg_self (s : State) (r : Reg) (v : Word) : (s.setReg r v).reg r = v := by
  simp [State.reg, State.setReg, Vector.get_eq_getElem]

@[simp] theorem State.reg_setReg_of_ne (s : State) {r q : Reg} (v : Word) (h : r ≠ q) :
    (s.setReg r v).reg q = s.reg q := by
  have : r.val ≠ q.val := fun e => h (Fin.ext e)
  simp [State.reg, State.setReg, Vector.get_eq_getElem, Vector.getElem_set_ne, this]

theorem State.regs_eq_of_reg {s t : State} (h : ∀ r, s.reg r = t.reg r) : s.regs = t.regs := by
  apply Vector.ext
  intro i hi
  exact h ⟨i, hi⟩

theorem State.reg_congr {s t : State} (h : s.regs = t.regs) (r : Reg) : s.reg r = t.reg r := by
  simp [State.reg, h]

@[simp] theorem State.setReg_pc (s : State) (r : Reg) (v : Word) : (s.setReg r v).pc = s.pc := rfl
@[simp] theorem State.setReg_idx (s : State) (r : Reg) (v : Word) : (s.setReg r v).idx = s.idx := rfl
@[simp] theorem State.setReg_status (s : State) (r : Reg) (v : Word) :
    (s.setReg r v).status = s.status := rfl
@[simp] theorem State.setReg_imem (s : State) (r : Reg) (v : Word) :
    (s.setReg r v).imem = s.imem := rfl

/-! ## The normal advance -/

@[simp] theorem State.advance_regs (s : State) : s.advance.regs = s.regs := rfl
@[simp] theorem State.advance_reg (s : State) (r : Reg) : s.advance.reg r = s.reg r := rfl
@[simp] theorem State.advance_pc (s : State) : s.advance.pc = s.pc + 4#32 := rfl
@[simp] theorem State.advance_idx (s : State) : s.advance.idx = s.idx + 1 := rfl
@[simp] theorem State.advance_status (s : State) : s.advance.status = s.status := rfl
@[simp] theorem State.advance_imem (s : State) : s.advance.imem = s.imem := rfl

/-! ## The taken branch -/

@[simp] theorem State.takeBranch_regs (s : State) (o : Int) : (s.takeBranch o).regs = s.regs := rfl
@[simp] theorem State.takeBranch_reg (s : State) (o : Int) (r : Reg) :
    (s.takeBranch o).reg r = s.reg r := rfl
@[simp] theorem State.takeBranch_pc (s : State) (o : Int) :
    (s.takeBranch o).pc = s.pc + wrap32 (4 * o) := by
  simp [State.takeBranch, takenBranchPcExtra]
@[simp] theorem State.takeBranch_idx (s : State) (o : Int) : (s.takeBranch o).idx = s.idx + o + 1 := rfl
@[simp] theorem State.takeBranch_status (s : State) (o : Int) :
    (s.takeBranch o).status = s.status := rfl
@[simp] theorem State.takeBranch_imem (s : State) (o : Int) : (s.takeBranch o).imem = s.imem := rfl

/-! ## The halt -/

@[simp] theorem State.halt_regs (s : State) : s.halt.regs = s.regs := rfl
@[simp] theorem State.halt_reg (s : State) (r : Reg) : s.halt.reg r = s.reg r := rfl
@[simp] theorem State.halt_pc (s : State) : s.halt.pc = s.pc := rfl
@[simp] theorem State.halt_idx (s : State) : s.halt.idx = s.idx := rfl
@[simp] theorem State.halt_status (s : State) : s.halt.status = .halted := rfl
@[simp] theorem State.halt_imem (s : State) : s.halt.imem = s.imem := rfl

/-! ## Reset and load -/

@[simp] theorem State.resetAt_pc (b : Word) (m : Memory) : (State.resetAt b m).pc = b := rfl
@[simp] theorem State.resetAt_idx (b : Word) (m : Memory) : (State.resetAt b m).idx = 0 := rfl
@[simp] theorem State.resetAt_status (b : Word) (m : Memory) :
    (State.resetAt b m).status = .running := rfl
@[simp] theorem State.resetAt_imem (b : Word) (m : Memory) : (State.resetAt b m).imem = m := rfl
@[simp] theorem State.load_regs (s : State) (m : Memory) : (s.load m).regs = s.regs := rfl
@[simp] theorem State.load_pc (s : State) (m : Memory) : (s.load m).pc = s.pc := rfl
@[simp] theorem State.load_idx (s : State) (m : Memory) : (s.load m).idx = s.idx := rfl
@[simp] theorem State.load_status (s : State) (m : Memory) : (s.load m).status = s.status := rfl
@[simp] theorem State.load_imem (s : State) (m : Memory) : (s.load m).imem = m := rfl

end Sys2Proof.Machine
end

