-- ==== Sys2Proof/Laws/Arith.lean ====
section
/-! SUPPORT. The arithmetic of the instruction set in terms of unsigned and signed integers: one
lemma for each operation of Machine/Operands.lean. -/

namespace Sys2Proof.Machine

theorem aluAdd_toNat (a b : Word) : (aluAdd a b).toNat = (a.toNat + b.toNat) % 2 ^ 32 :=
  BitVec.toNat_add a b

theorem aluSrl_toNat (a : Word) (n : Shamt) : (aluSrl a n).toNat = a.toNat / 2 ^ n.val := by
  simp [aluSrl, Nat.shiftRight_eq_div_pow]

theorem aluSll_toNat (a : Word) (n : Shamt) : (aluSll a n).toNat = a.toNat * 2 ^ n.val % 2 ^ 32 := by
  simp [aluSll, Nat.shiftLeft_eq]

theorem aluAnd_getLsbD (a b : Word) (k : Nat) :
    (aluAnd a b).getLsbD k = (a.getLsbD k && b.getLsbD k) := by
  simp [aluAnd]

theorem zext32_getLsbD (v : BitVec 16) (k : Nat) :
    (zext32 v).getLsbD k = (decide (k < 16) && v.getLsbD k) := by
  rw [zext32, BitVec.getLsbD_setWidth]
  by_cases h : k < 16
  · simp [h, show k < 32 by omega]
  · have : v.getLsbD k = false := BitVec.getLsbD_of_ge v k (by omega)
    simp [h, this]

/-- The model's reading of an offset is the one of the spec's notation. -/
theorem signed16_eq (v : BitVec 16) : signed16 v = signedValue v := by
  unfold signed16 signedValue
  rw [BitVec.toInt_eq_toNat_cond]
  split <;> split <;> omega

theorem signedValue_range (v : BitVec 16) : -32768 ≤ signedValue v ∧ signedValue v ≤ 32767 := by
  have := v.isLt
  unfold signedValue
  split <;> omega

/-- `sext_32`, as the notation of 00_scope.md spells it. -/
theorem sext32_toNat (v : BitVec 16) :
    (sext32 v).toNat = if v.toNat < 32768 then v.toNat else v.toNat + 0xFFFF0000 := by
  have hv := v.isLt
  have h := congrArg (fun n : Int => n % 2 ^ 32) (signed16_eq v)
  unfold signed16 signedValue at h
  rw [sext32, BitVec.signExtend, BitVec.toNat_ofInt]
  rw [show ((2 ^ 32 : Nat) : Int) = 2 ^ 32 from rfl, h]
  split <;> omega

theorem add_wrap32_toNat (a : Word) (n : Int) :
    ((a + wrap32 n).toNat : Int) = ((a.toNat : Int) + n) % 2 ^ 32 := by
  rw [BitVec.toNat_add, wrap32, BitVec.toNat_ofInt]
  omega

theorem add_four_toNat (a : Word) : (a + 4#32).toNat = (a.toNat + 4) % 2 ^ 32 := by
  rw [BitVec.toNat_add]
  rfl

end Sys2Proof.Machine
end

