-- ==== Sys2Proof/Laws/Decode.lean ====
section
/-! SUPPORT. Masks, fields and formats as arithmetic on the unsigned value of a word, and the decoder
by the `op` and `funct` numbers. -/

namespace Sys2Proof

/-! ## Fields and formats as numbers -/

theorem fieldRs_val (w : Word) : (fieldRs w).val = w.toNat / 2 ^ 21 % 32 := by
  simp [fieldRs, Nat.shiftRight_eq_div_pow]

theorem fieldRt_val (w : Word) : (fieldRt w).val = w.toNat / 2 ^ 16 % 32 := by
  simp [fieldRt, Nat.shiftRight_eq_div_pow]

theorem fieldRd_val (w : Word) : (fieldRd w).val = w.toNat / 2 ^ 11 % 32 := by
  simp [fieldRd, Nat.shiftRight_eq_div_pow]

theorem fieldShamt_val (w : Word) : (fieldShamt w).val = w.toNat / 2 ^ 6 % 32 := by
  simp [fieldShamt, Nat.shiftRight_eq_div_pow]

theorem fieldImm16_toNat (w : Word) : (fieldImm16 w).toNat = w.toNat % 2 ^ 16 := by
  simp [fieldImm16]

theorem ignoredRt_toNat (w : Word) : (ignoredRt w).toNat = w.toNat / 2 ^ 16 % 32 := by
  simp [ignoredRt, Nat.shiftRight_eq_div_pow]

theorem ignoredShamt_toNat (w : Word) : (ignoredShamt w).toNat = w.toNat / 2 ^ 6 % 32 := by
  simp [ignoredShamt, Nat.shiftRight_eq_div_pow]

@[simp] theorem bits5_toNat (n : Fin 32) : (bits5 n).toNat = n.val := rfl

/-- Concatenation as arithmetic. -/
theorem append_toNat {m n : Nat} (a : BitVec m) (b : BitVec n) :
    (a ++ b).toNat = a.toNat * 2 ^ n + b.toNat := by
  rw [BitVec.toNat_append, ← Nat.shiftLeft_add_eq_or_of_lt b.isLt, Nat.shiftLeft_eq]

theorem formatI_toNat (op : BitVec 6) (rs rt : BitVec 5) (imm : BitVec 16) :
    (formatI op rs rt imm).toNat =
      op.toNat * 2 ^ 26 + rs.toNat * 2 ^ 21 + rt.toNat * 2 ^ 16 + imm.toNat := by
  simp only [formatI, append_toNat]
  ring

theorem formatR_toNat (rs rt rd shamt : BitVec 5) (funct : BitVec 6) :
    (formatR rs rt rd shamt funct).toNat =
      rs.toNat * 2 ^ 21 + rt.toNat * 2 ^ 16 + rd.toNat * 2 ^ 11 + shamt.toNat * 2 ^ 6 +
        funct.toNat := by
  simp only [formatR, append_toNat, BitVec.toNat_ofNat]
  ring

/-! ## Masks as numbers -/

/-- The mask of the top six bits. -/
theorem opMask_eq (w : Word) : w &&& 0xFC000000#32 = (w >>> 26) <<< 26 := by
  have hm : ∀ i : Fin 32, (0xFC000000#32).getLsbD i = decide (26 ≤ i.val) := by decide
  apply BitVec.eq_of_getLsbD_eq
  intro i hi
  have := hm ⟨i, hi⟩
  simp only [BitVec.getLsbD_and, BitVec.getLsbD_shiftLeft, BitVec.getLsbD_ushiftRight] at *
  rw [this]
  by_cases h : 26 ≤ i
  · simp [h, hi, show 26 + (i - 26) = i by omega]
  · simp [h, show i < 26 by omega]

theorem opMask_toNat (w : Word) : (w &&& 0xFC000000#32).toNat = w.toNat / 2 ^ 26 * 2 ^ 26 := by
  have := w.isLt
  rw [opMask_eq]
  simp only [BitVec.toNat_shiftLeft, BitVec.toNat_ushiftRight, Nat.shiftLeft_eq,
    Nat.shiftRight_eq_div_pow]
  omega

/-- The mask of the top six and the low six bits, as the sum of its two parts. -/
theorem functMask_toNat (w : Word) :
    (w &&& 0xFC00003F#32).toNat = w.toNat / 2 ^ 26 * 2 ^ 26 + w.toNat % 2 ^ 6 := by
  have hs : (0xFC00003F#32) = 0xFC000000#32 ||| 0x3F#32 := by decide
  have hl : (w &&& 0x3F#32).toNat = w.toNat % 2 ^ 6 := by
    rw [BitVec.toNat_and]
    exact Nat.and_two_pow_sub_one_eq_mod w.toNat 6
  have ho : ((w &&& 0xFC000000#32) ||| (w &&& 0x3F#32)).toNat =
      (w &&& 0xFC000000#32).toNat + (w &&& 0x3F#32).toNat := by
    rw [BitVec.toNat_or, opMask_toNat, hl, ← Nat.shiftLeft_eq, Nat.shiftLeft_add_eq_or_of_lt]
    omega
  rw [hs, BitVec.and_or_distrib_left, ho, opMask_toNat, hl]

/-! ## What a row matches, as numbers -/

theorem matches_op (k : Kind) (p w : Word) :
    (Row.mk k 0xFC000000#32 p).matches w = true ↔ w.toNat / 2 ^ 26 * 2 ^ 26 = p.toNat := by
  simp only [Row.matches, beq_iff_eq, ← BitVec.toNat_inj, opMask_toNat]

theorem matches_funct (k : Kind) (p w : Word) :
    (Row.mk k 0xFC00003F#32 p).matches w = true ↔
      w.toNat / 2 ^ 26 * 2 ^ 26 + w.toNat % 2 ^ 6 = p.toNat := by
  simp only [Row.matches, beq_iff_eq, ← BitVec.toNat_inj, functMask_toNat]

theorem matches_whole (k : Kind) (w : Word) :
    (Row.mk k 0xFFFFFFFF#32 0x00000000#32).matches w = true ↔ w.toNat = 0 := by
  have : w &&& 0xFFFFFFFF#32 = w := BitVec.and_allOnes
  simp only [Row.matches, this, beq_iff_eq, ← BitVec.toNat_inj, BitVec.toNat_ofNat, Nat.zero_mod]

/-- The kind of a word by its `op` and `funct` numbers (30_encoding.md R52). -/
def kindByNumber (n : Nat) : Option Kind :=
  if n = 0 then some .nop
  else if n / 2 ^ 26 = 0x08 then some .addi
  else if n / 2 ^ 26 = 0x0C then some .andi
  else if n / 2 ^ 26 = 0x00 ∧ n % 2 ^ 6 = 0x20 then some .add
  else if n / 2 ^ 26 = 0x00 ∧ n % 2 ^ 6 = 0x02 then some .srl
  else if n / 2 ^ 26 = 0x00 ∧ n % 2 ^ 6 = 0x00 then some .sll
  else if n / 2 ^ 26 = 0x04 then some .beq
  else if n / 2 ^ 26 = 0x05 then some .bne
  else none

theorem kindOf_cons (w : Word) (r : Row) (rest : List Row) :
    ((r :: rest).find? fun q => q.matches w).map Row.kind =
      if r.matches w = true then some r.kind
      else (rest.find? fun q => q.matches w).map Row.kind := by
  rw [List.find?_cons]
  cases r.matches w <;> rfl

theorem matches_op_iff (k : Kind) (c : Nat) (p w : Word) (hp : p.toNat = c * 2 ^ 26) :
    (Row.mk k 0xFC000000#32 p).matches w = true ↔ w.toNat / 2 ^ 26 = c := by
  rw [matches_op, hp]
  omega

theorem matches_funct_iff (k : Kind) (p w : Word) (hp : p.toNat < 64) :
    (Row.mk k 0xFC00003F#32 p).matches w = true ↔
      w.toNat / 2 ^ 26 = 0 ∧ w.toNat % 2 ^ 6 = p.toNat := by
  rw [matches_funct]
  omega

/-- The decoder's table, by masks, and the table of numbers name the same kind for every word. -/
theorem classify_eq_kindByNumber (w : Word) : classify w = kindByNumber w.toNat := by
  have e1 := matches_whole .nop w
  have e2 := matches_op_iff .addi 0x08 0x20000000#32 w (by decide)
  have e3 := matches_op_iff .andi 0x0C 0x30000000#32 w (by decide)
  have e4 := matches_funct_iff .add 0x00000020#32 w (by decide)
  have e5 := matches_funct_iff .srl 0x00000002#32 w (by decide)
  have e6 := matches_funct_iff .sll 0x00000000#32 w (by decide)
  have e7 := matches_op_iff .beq 0x04 0x10000000#32 w (by decide)
  have e8 := matches_op_iff .bne 0x05 0x14000000#32 w (by decide)
  unfold classify opcodeTable kindByNumber
  rw [kindOf_cons, kindOf_cons, kindOf_cons, kindOf_cons, kindOf_cons, kindOf_cons, kindOf_cons,
    kindOf_cons]
  simp only [e1, e2, e3, e4, e5, e6, e7, e8, List.find?_nil, Option.map_none,
    BitVec.toNat_ofNat, Nat.reducePow, Nat.reduceMod]

/-! ## The kind of a number, row by row -/

theorem kindByNumber_addi {n : Nat} (h : n / 2 ^ 26 = 0x08) : kindByNumber n = some .addi := by
  unfold kindByNumber
  rw [if_neg (by omega), if_pos h]

theorem kindByNumber_andi {n : Nat} (h : n / 2 ^ 26 = 0x0C) : kindByNumber n = some .andi := by
  unfold kindByNumber
  rw [if_neg (by omega), if_neg (by omega), if_pos h]

theorem kindByNumber_add {n : Nat} (h : n / 2 ^ 26 = 0) (hf : n % 2 ^ 6 = 0x20) :
    kindByNumber n = some .add := by
  unfold kindByNumber
  rw [if_neg (by omega), if_neg (by omega), if_neg (by omega), if_pos ⟨h, hf⟩]

theorem kindByNumber_srl {n : Nat} (h : n / 2 ^ 26 = 0) (hf : n % 2 ^ 6 = 0x02) :
    kindByNumber n = some .srl := by
  unfold kindByNumber
  rw [if_neg (by omega), if_neg (by omega), if_neg (by omega), if_neg (by omega), if_pos ⟨h, hf⟩]

theorem kindByNumber_sll {n : Nat} (hn : n ≠ 0) (h : n / 2 ^ 26 = 0) (hf : n % 2 ^ 6 = 0) :
    kindByNumber n = some .sll := by
  unfold kindByNumber
  rw [if_neg hn, if_neg (by omega), if_neg (by omega), if_neg (by omega), if_neg (by omega),
    if_pos ⟨h, hf⟩]

theorem kindByNumber_beq {n : Nat} (h : n / 2 ^ 26 = 0x04) : kindByNumber n = some .beq := by
  unfold kindByNumber
  rw [if_neg (by omega), if_neg (by omega), if_neg (by omega), if_neg (by omega),
    if_neg (by omega), if_neg (by omega), if_pos h]

theorem kindByNumber_bne {n : Nat} (h : n / 2 ^ 26 = 0x05) : kindByNumber n = some .bne := by
  unfold kindByNumber
  rw [if_neg (by omega), if_neg (by omega), if_neg (by omega), if_neg (by omega),
    if_neg (by omega), if_neg (by omega), if_neg (by omega), if_pos h]

/-! ## The decoder -/

theorem decode_of_kind {w : Word} {k : Kind} (h : kindByNumber w.toNat = some k) :
    decode w = .ok (build k w) := by
  simp [decode, classify_eq_kindByNumber, h]

theorem decode_of_none {w : Word} (h : kindByNumber w.toNat = none) :
    decode w = .error (.unmatchedWord w) := by
  simp [decode, classify_eq_kindByNumber, h]

theorem decode_ok_iff (w : Word) (i : Instr) :
    decode w = .ok i ↔ ∃ k, kindByNumber w.toNat = some k ∧ i = build k w := by
  cases h : kindByNumber w.toNat with
  | none => simp [decode_of_none h]
  | some k =>
    rw [decode_of_kind h]
    simp [eq_comm]

theorem decodeTableWord_eq_some (nbits w : Nat) (i : Instr) :
    decodeTableWord nbits w = some i ↔ decode (tableWord nbits w) = .ok i := by
  unfold decodeTableWord
  split <;> simp_all

end Sys2Proof
end

