-- ==== Sys2Proof/Laws/Assembler.lean ====
section
/-! SUPPORT. One lemma for each function of the assembler that says what it answers when it answers a
value. -/

namespace Sys2Proof.Asm

theorem packImm_ok {v : Int} {f : BitVec 16} (h : packImm v = .ok f) :
    -32768 ≤ v ∧ v ≤ 32767 ∧ f = BitVec.ofInt 16 v := by
  unfold packImm at h
  split at h
  · rename_i hv
    injection h with h
    exact ⟨hv.1, hv.2, h.symm⟩
  · cases h

theorem signedValue_ofInt {v : Int} (h : -32768 ≤ v ∧ v ≤ 32767) :
    Machine.signedValue (BitVec.ofInt 16 v) = v := by
  unfold Machine.signedValue
  rw [BitVec.toNat_ofInt]
  split <;> omega

theorem branchField_ok {t c : Nat} {f : BitVec 16} (h : branchField t c = .ok f) :
    (c : Int) + Machine.signedValue f + 1 = t := by
  obtain ⟨h1, h2, rfl⟩ := packImm_ok h
  rw [signedValue_ofInt ⟨h1, h2⟩]
  omega

theorem findLabel_ok_iff (ls : List Line) (target : Text) (t : Nat) :
    findLabel ls target = .ok t ↔ (ls.findIdx? fun l => l.label == some target) = some t := by
  unfold findLabel
  cases (ls.findIdx? fun l => l.label == some target) <;> simp

theorem findLabel_lt {ls : List Line} {target : Text} {t : Nat} (h : findLabel ls target = .ok t) :
    t < ls.length :=
  (List.findIdx?_eq_some_iff_findIdx_eq.1 ((findLabel_ok_iff ls target t).1 h)).1

theorem targetField_ok {ls : List Line} {c : Nat} {target : Text} {f : BitVec 16}
    (h : targetField ls c target = .ok f) :
    ∃ t, findLabel ls target = .ok t ∧ branchField t c = .ok f := by
  unfold targetField at h
  split at h
  · cases h
  · exact ⟨_, by assumption, h⟩

theorem immediateLine_ok {op : Reg → Reg → BitVec 16 → Instr} {d s imm : Text} {i : Instr}
    (h : immediateLine op d s imm = .ok i) : ∃ rt rs v, i = op rt rs v := by
  unfold immediateLine at h
  split at h <;> first | (injection h with h; exact ⟨_, _, _, h.symm⟩) | cases h

theorem shiftLine_ok {op : Reg → Reg → Shamt → BitVec 5 → Instr} {d s sh : Text} {i : Instr}
    (h : shiftLine op d s sh = .ok i) : ∃ rd rs n, i = op rd rs n 0#5 := by
  unfold shiftLine at h
  split at h <;> first | (injection h with h; exact ⟨_, _, _, h.symm⟩) | cases h

theorem addLine_ok {d a b : Text} {i : Instr} (h : addLine d a b = .ok i) :
    ∃ rd rs rt, i = .add rd rs rt 0#5 := by
  unfold addLine at h
  split at h <;> first | (injection h with h; exact ⟨_, _, _, h.symm⟩) | cases h

theorem branchLine_ok {op : Reg → Reg → BitVec 16 → Instr} {ls : List Line} {c : Nat}
    {a b target : Text} {i : Instr} (h : branchLine op ls c a b target = .ok i) :
    ∃ rs rt o, i = op rs rt o ∧ targetField ls c target = .ok o := by
  unfold branchLine at h
  split at h <;>
    first
    | (injection h with h; exact ⟨_, _, _, h.symm, by assumption⟩)
    | cases h

/-- The instruction of a line is one whose offset, if it has one, is the field of a label's line. -/
theorem lineInstr_offset {ls : List Line} {c : Nat} {k : Kind} {m : Text} {args : List Text}
    {i : Instr} (h : lineInstr ls c k m args = .ok i) {o : BitVec 16} (ho : i.offset = some o) :
    ∃ t, t < ls.length ∧ branchField t c = .ok o := by
  have hb {op : Reg → Reg → BitVec 16 → Instr} {a b l : Text}
      (hop : ∀ x y z, (op x y z).offset = some z) (h : branchLine op ls c a b l = .ok i) :
      ∃ t, t < ls.length ∧ branchField t c = .ok o := by
    obtain ⟨_, _, o', rfl, hf⟩ := branchLine_ok h
    obtain ⟨t, ht, hf⟩ := targetField_ok hf
    rw [hop] at ho
    injection ho with ho
    exact ⟨t, findLabel_lt ht, ho ▸ hf⟩
  unfold lineInstr at h
  split at h
  · injection h with h
    subst h
    cases ho
  · obtain ⟨_, _, _, rfl⟩ := immediateLine_ok h
    cases ho
  · obtain ⟨_, _, _, rfl⟩ := immediateLine_ok h
    cases ho
  · obtain ⟨_, _, _, rfl⟩ := addLine_ok h
    cases ho
  · obtain ⟨_, _, _, rfl⟩ := shiftLine_ok h
    cases ho
  · obtain ⟨_, _, _, rfl⟩ := shiftLine_ok h
    cases ho
  · exact hb (fun _ _ _ => rfl) h
  · exact hb (fun _ _ _ => rfl) h
  · cases h

theorem assembleLine_offset {ls : List Line} {c : Nat} {l : Line} {i : Instr}
    (h : assembleLine ls c l = .ok i) {o : BitVec 16} (ho : i.offset = some o) :
    ∃ t, t < ls.length ∧ branchField t c = .ok o := by
  unfold assembleLine at h
  split at h
  · cases h
  · exact lineInstr_offset h ho

theorem parseAll_length {src : List Text} {ls : List Line} (h : parseAll src = .ok ls) :
    ls.length = src.length := by
  induction src generalizing ls with
  | nil =>
    injection h with h
    exact h ▸ rfl
  | cons t rest ih =>
    unfold parseAll at h
    split at h
    · cases h
    · split at h
      · cases h
      · injection h with h
        subst h
        simp [ih (by assumption)]

theorem assemble_ok {src : List Text} {ws : List Word} (h : assemble src = .ok ws) :
    ∃ ls, parseAll src = .ok ls ∧ assembleLines ls = .ok ws := by
  unfold assemble at h
  split at h
  · cases h
  · exact ⟨_, by assumption, h⟩

end Sys2Proof.Asm
end

