-- ==== Sys2Proof/Laws/Ops.lean ====
section
/-! SUPPORT. One lemma for each shared operation of Machine/Ops.lean that says everything it can do,
the laws of the stream, and the one inversion lemma of the step. -/

namespace Sys2Proof.Machine

/-! ## Answers of the shared steps -/

/-- The one state a register-writing step answers: the destination holds the value and the rest is a
normal step. -/
theorem writeStep_next (d : Reg) (v : Word) (s : State) :
    ∃ t, writeStep d v s = .next t ∧ t.reg d = v ∧ NormalStep (some d) s t := by
  refine ⟨_, rfl, by simp, fun r hr => ?_, by simp, ?_, by simp, by simp⟩
  · simp [State.reg_setReg_of_ne s v (fun e : d = r => hr (e ▸ rfl))]
  · simp

theorem advance_normalStep (s : State) : NormalStep none s s.advance :=
  ⟨fun _ _ => rfl, rfl, add_four_toNat s.pc, rfl, rfl⟩

theorem takeBranch_takenStep (s : State) (v : BitVec 16) :
    TakenStep (signedValue v) s (s.takeBranch (signed16 v)) := by
  refine ⟨fun _ => rfl, by simp [signed16_eq], ?_, rfl, rfl⟩
  rw [State.takeBranch_pc, add_wrap32_toNat, signed16_eq]

theorem halt_haltStep (s : State) : HaltStep s s.halt :=
  ⟨fun _ => rfl, rfl, rfl, rfl, rfl⟩

/-! ## The stream -/

@[simp] theorem Memory.size_eq (m : Memory) : m.size = (m.length : Int) := rfl

theorem Memory.read_some_iff (m : Memory) (i : Int) (w : Word) :
    m.read i = some w ↔ 0 ≤ i ∧ m[i.toNat]? = some w := by
  unfold Memory.read
  split
  · simp only [reduceCtorEq, false_iff, not_and]
    omega
  · constructor
    · intro h
      exact ⟨by omega, h⟩
    · exact fun h => h.2

theorem State.fetch_endOfStream_iff (s : State) :
    s.fetch = .endOfStream ↔ (s.imem.length : Int) ≤ s.idx := by
  unfold State.fetch
  rw [Memory.size_eq]
  split
  · simp [*]
  · split <;> simp [*]

theorem State.fetch_word_iff (s : State) (w : Word) :
    s.fetch = .word w ↔ 0 ≤ s.idx ∧ s.imem[s.idx.toNat]? = some w := by
  rw [← Memory.read_some_iff]
  unfold State.fetch
  rw [Memory.size_eq]
  split
  · rename_i h
    have : s.imem.read s.idx = none := by
      unfold Memory.read
      split
      · rfl
      · exact List.getElem?_eq_none (by omega)
    simp [this]
  · split <;> simp [*]

theorem State.fetch_beforeStart_iff (s : State) : s.fetch = .beforeStart ↔ s.idx < 0 := by
  constructor
  · intro h
    by_contra hn
    by_cases hl : (s.imem.length : Int) ≤ s.idx
    · rw [(s.fetch_endOfStream_iff).2 hl] at h
      exact absurd h (by simp)
    · have hlt : s.idx.toNat < s.imem.length := by omega
      have := (s.fetch_word_iff s.imem[s.idx.toNat]).2
        ⟨by omega, List.getElem?_eq_getElem hlt⟩
      rw [this] at h
      exact absurd h (by simp)
  · intro h
    have hl : ¬ (s.imem.length : Int) ≤ s.idx := by omega
    unfold State.fetch Memory.read
    simp [hl, h]

theorem Memory.place_length (m : Memory) (i : Nat) (w : Word) :
    (m.place i w).length = max m.length (i + 1) := by
  fun_induction Memory.place m i w <;> simp_all

theorem Memory.place_get_self (m : Memory) (i : Nat) (w : Word) : (m.place i w)[i]? = some w := by
  fun_induction Memory.place m i w <;> simp_all

theorem Memory.place_get_of_ne (m : Memory) (i j : Nat) (w : Word) (h : j ≠ i) (hj : j < m.length) :
    (m.place i w)[j]? = m[j]? := by
  fun_induction Memory.place m i w generalizing j with
  | case1 w => simp at hj
  | case2 w i ih => simp at hj
  | case3 w v m =>
    cases j with
    | zero => exact absurd rfl h
    | succ j => simp
  | case4 w v m i ih =>
    cases j with
    | zero => simp
    | succ j => simpa using ih j (by omega) (by simpa using hj)

/-- Placing a word inside the stream keeps it within the capacity. -/
theorem Memory.place_wf (m : Memory) (i : Nat) (w : Word) (h : i < m.length) (hm : m.wf = true) :
    (m.place i w).wf = true := by
  have hl : (m.place i w).length = m.length := by
    rw [Memory.place_length]
    omega
  unfold Memory.wf at *
  rw [hl]
  exact hm

/-- The stream of the reset state fits every capacity. -/
theorem State.reset_imem_wf : State.reset.imem.wf = true := by
  simp only [State.reset, State.resetAt_imem, Memory.wf]
  split <;> simp

/-! ## The state is at a word, or at none -/

theorem State.AtWord.fetch {s : State} {w : Word} (h : s.AtWord w) : s.fetch = .word w :=
  (s.fetch_word_iff w).2 h.2

theorem step_of_halted {s : State} (h : s.status = .halted) : step s = .next s := by
  simp [step, h, haltedStep]

theorem step_of_atWord {s : State} {w : Word} (h : s.AtWord w) : step s = stepWord w s := by
  simp [step, runningStep, h.1, h.fetch]

theorem step_of_endOfStream {s : State} (hs : s.status = .running)
    (h : (s.imem.length : Int) ≤ s.idx) : step s = .next s.halt := by
  simp [step, runningStep, hs, (s.fetch_endOfStream_iff).2 h, endOfStreamStep, haltStep]

/-- A running block is past the end, before the start, or at a word. -/
theorem State.running_cases {s : State} (h : s.status = .running) :
    (s.imem.length : Int) ≤ s.idx ∨ s.idx < 0 ∨ ∃ w, s.AtWord w := by
  cases hf : s.fetch with
  | endOfStream => exact .inl (s.fetch_endOfStream_iff.1 hf)
  | beforeStart => exact .inr (.inl (s.fetch_beforeStart_iff.1 hf))
  | word w => exact .inr (.inr ⟨w, h, (s.fetch_word_iff w).1 hf⟩)

/-! ## The inversion lemmas -/

/-- Everything an instruction can do, seen from outside: it halts, it writes its destination in a
normal step, or it is a branch that is taken or not. -/
theorem exec_cases (i : Instr) (s : State) :
    (i = .nop ∧ exec i s = .next s.halt) ∨
    (∃ d v, i.dest = some d ∧ exec i s = .next (s.setReg d v).advance) ∨
    (∃ o, i.offset = some o ∧ exec i s = .next (s.takeBranch (signed16 o))) ∨
    (∃ o, i.offset = some o ∧ exec i s = .next s.advance) := by
  cases i with
  | nop => exact .inl ⟨rfl, rfl⟩
  | addi rt rs imm => exact .inr (.inl ⟨_, _, rfl, rfl⟩)
  | andi rt rs imm => exact .inr (.inl ⟨_, _, rfl, rfl⟩)
  | add rd rs rt u => exact .inr (.inl ⟨_, _, rfl, rfl⟩)
  | srl rd rs n u => exact .inr (.inl ⟨_, _, rfl, rfl⟩)
  | sll rd rs n u => exact .inr (.inl ⟨_, _, rfl, rfl⟩)
  | beq rs rt o =>
    refine .inr (.inr ?_)
    simp only [exec, execBeq, branchStep, Instr.offset]
    cases condEqual (s.reg rs) (s.reg rt) <;> simp
  | bne rs rt o =>
    refine .inr (.inr ?_)
    simp only [exec, execBne, branchStep, Instr.offset]
    cases condDiffer (s.reg rs) (s.reg rt) <;> simp

/-- Everything a step can do when it answers a next state, by what it found. -/
theorem step_next_cases {s t : State} (h : step s = .next t) :
    (s.status = .halted ∧ t = s) ∨
    (s.status = .running ∧ (s.imem.length : Int) ≤ s.idx ∧ t = s.halt) ∨
    (∃ w i, s.AtWord w ∧ decode w = .ok i ∧ exec i s = .next t) ∨
    (∃ w e, s.AtWord w ∧ decode w = .error e ∧ t = s.advance) := by
  cases hs : s.status with
  | halted =>
    rw [step_of_halted hs] at h
    exact .inl ⟨rfl, by injection h with h; exact h.symm⟩
  | running =>
    rcases State.running_cases hs with he | hb | ⟨w, hw⟩
    · refine .inr (.inl ⟨rfl, he, ?_⟩)
      simp only [step, runningStep, hs, (s.fetch_endOfStream_iff).2 he, endOfStreamStep, haltStep] at h
      injection h with h
      exact h.symm
    · simp [step, runningStep, hs, (s.fetch_beforeStart_iff).2 hb] at h
    · rw [step_of_atWord hw, stepWord] at h
      cases hd : decode w with
      | ok i => exact .inr (.inr (.inl ⟨w, i, hw, hd, by simpa [hd] using h⟩))
      | error e =>
        refine .inr (.inr (.inr ⟨w, e, hw, hd, ?_⟩))
        simp only [hd, execUnmatched] at h
        injection h with h
        exact h.symm

/-! ## Runs -/

theorem coreRun_succ_of_next (M : Host.Core) {s t : M.State} (h : M.step s = .next t) (k : Nat) :
    M.run (k + 1) s = M.run k t := by
  rw [Host.Core.run, h]

theorem coreRun_succ_of_fault (M : Host.Core) {s : M.State} {f : M.Fault} (h : M.step s = .fault f)
    (k : Nat) : M.run (k + 1) s = .fault f := by
  rw [Host.Core.run, h]

theorem coreRun_succ_of_refused (M : Host.Core) {s : M.State} {r : M.Refusal}
    (h : M.step s = .refused r) (k : Nat) : M.run (k + 1) s = .refused r := by
  rw [Host.Core.run, h]

@[simp] theorem run_zero (s : State) : Sys2Proof.core.run 0 s = .next s := rfl

theorem run_succ_of_next {s t : State} (h : step s = .next t) (k : Nat) :
    Sys2Proof.core.run (k + 1) s = Sys2Proof.core.run k t :=
  coreRun_succ_of_next Sys2Proof.core h k

theorem run_succ_of_fault {s : State} {f : Fault} (h : step s = .fault f) (k : Nat) :
    Sys2Proof.core.run (k + 1) s = .fault f :=
  coreRun_succ_of_fault Sys2Proof.core h k

theorem run_succ_of_refused {s : State} {r : Refusal} (h : step s = .refused r) (k : Nat) :
    Sys2Proof.core.run (k + 1) s = .refused r :=
  coreRun_succ_of_refused Sys2Proof.core h k

/-- A run of `k + 1` steps that answers a next state made a first step that did. -/
theorem run_succ_next {s t : State} {k : Nat} (h : Sys2Proof.core.run (k + 1) s = .next t) :
    ∃ u, step s = .next u ∧ Sys2Proof.core.run k u = .next t := by
  cases hs : step s with
  | next u => exact ⟨u, rfl, by rw [← run_succ_of_next hs]; exact h⟩
  | fault f =>
    rw [run_succ_of_fault hs] at h
    cases h
  | refused r =>
    rw [run_succ_of_refused hs] at h
    cases h

/-- A relation that every state has to itself and that a step extends holds along every run. -/
theorem run_induction {P : State → State → Prop} (refl : ∀ s, P s s)
    (cons : ∀ s u t, step s = .next u → P u t → P s t) (k : Nat) (s t : State)
    (h : Sys2Proof.core.run k s = .next t) : P s t := by
  induction k generalizing s with
  | zero =>
    have h' : (Host.Outcome.next s : Host.Outcome State Fault Refusal) = .next t := h
    injection h' with h'
    exact h' ▸ refl s
  | succ k ih =>
    obtain ⟨u, hs, hu⟩ := run_succ_next h
    exact cons s u t hs (ih u hu)

end Sys2Proof.Machine
end

