-- ==== Sys2Proof/Laws/PerInstr.lean ====
section
/-! SUPPORT. Facts proved of every instruction as syntax, one lemma for each constructor. -/

namespace Sys2Proof.Laws

/-- The row of the opcode table that an instruction belongs to (30_encoding.md R53). -/
def rowKind : Instr → Kind
  | .nop => .nop
  | .addi _ _ _ => .addi
  | .andi _ _ _ => .andi
  | .add _ _ _ _ => .add
  | .srl _ _ _ _ => .srl
  | .sll _ _ _ _ => .sll
  | .beq _ _ _ => .beq
  | .bne _ _ _ => .bne

/-- The word of a well-formed instruction has the numbers of its own row (R52, R54). -/
def EncodesInRow.Statement (i : Instr) : Prop :=
  i.wf = true → kindByNumber (encode i).toNat = some (rowKind i)

namespace EncodesInRow

theorem nop : Statement .nop := fun _ => rfl

theorem addi (rt rs : Reg) (imm : BitVec 16) : Statement (.addi rt rs imm) := by
  intro _
  have h : (encode (.addi rt rs imm)).toNat = _ := formatI_toNat 0b001000#6 (bits5 rs) (bits5 rt) imm
  have := rs.isLt; have := rt.isLt; have := imm.isLt
  simp only [bits5_toNat, BitVec.toNat_ofNat] at h
  exact kindByNumber_addi (by omega)

theorem andi (rt rs : Reg) (imm : BitVec 16) : Statement (.andi rt rs imm) := by
  intro _
  have h : (encode (.andi rt rs imm)).toNat = _ := formatI_toNat 0b001100#6 (bits5 rs) (bits5 rt) imm
  have := rs.isLt; have := rt.isLt; have := imm.isLt
  simp only [bits5_toNat, BitVec.toNat_ofNat] at h
  exact kindByNumber_andi (by omega)

theorem add (rd rs rt : Reg) (u : BitVec 5) : Statement (.add rd rs rt u) := by
  intro _
  have h : (encode (.add rd rs rt u)).toNat = _ := formatR_toNat (bits5 rs) (bits5 rt) (bits5 rd) u 0b100000#6
  have := rs.isLt; have := rt.isLt; have := rd.isLt; have := u.isLt
  simp only [bits5_toNat, BitVec.toNat_ofNat] at h
  exact kindByNumber_add (by omega) (by omega)

theorem srl (rd rs : Reg) (n : Shamt) (u : BitVec 5) : Statement (.srl rd rs n u) := by
  intro _
  have h : (encode (.srl rd rs n u)).toNat = _ := formatR_toNat (bits5 rs) u (bits5 rd) (bits5 n) 0b000010#6
  have := rs.isLt; have := n.isLt; have := rd.isLt; have := u.isLt
  simp only [bits5_toNat, BitVec.toNat_ofNat] at h
  exact kindByNumber_srl (by omega) (by omega)

theorem sll (rd rs : Reg) (n : Shamt) (u : BitVec 5) : Statement (.sll rd rs n u) := by
  intro hw
  have h : (encode (.sll rd rs n u)).toNat = _ :=
    formatR_toNat (bits5 rs) u (bits5 rd) (bits5 n) 0b000000#6
  have := rs.isLt; have := n.isLt; have := rd.isLt; have := u.isLt
  simp only [bits5_toNat, BitVec.toNat_ofNat] at h
  have hz : (encode (.sll rd rs n u)).toNat ≠ 0 := by
    intro he
    have h1 : rd = 0 := Fin.ext (show rd.val = 0 by omega)
    have h2 : rs = 0 := Fin.ext (show rs.val = 0 by omega)
    have h3 : n = 0 := Fin.ext (show n.val = 0 by omega)
    have h4 : u = 0#5 := BitVec.eq_of_toNat_eq (show u.toNat = 0 by omega)
    simp [Instr.wf, h1, h2, h3, h4] at hw
  exact kindByNumber_sll hz (by omega) (by omega)

theorem beq (rs rt : Reg) (o : BitVec 16) : Statement (.beq rs rt o) := by
  intro _
  have h : (encode (.beq rs rt o)).toNat = _ := formatI_toNat 0b000100#6 (bits5 rs) (bits5 rt) o
  have := rs.isLt; have := rt.isLt; have := o.isLt
  simp only [bits5_toNat, BitVec.toNat_ofNat] at h
  exact kindByNumber_beq (by omega)

theorem bne (rs rt : Reg) (o : BitVec 16) : Statement (.bne rs rt o) := by
  intro _
  have h : (encode (.bne rs rt o)).toNat = _ := formatI_toNat 0b000101#6 (bits5 rs) (bits5 rt) o
  have := rs.isLt; have := rt.isLt; have := o.isLt
  simp only [bits5_toNat, BitVec.toNat_ofNat] at h
  exact kindByNumber_bne (by omega)

end EncodesInRow

end Sys2Proof.Laws
end

