-- ==== Sys2Proof/Tests/Slice0.lean ====
section
/-! SUPPORT. Tests with results taken from spec/95_test_vectors.md and the examples of the rules, the
check of ill-formed terms, one word for each constructor written out from its format, and for each
statement with hypotheses a state and operands that meet them. -/

namespace Sys2Proof.Tests

open Sys2Proof.Machine

/-! ## Helpers -/

/-- A reset state with a stream and some registers set, at the base of the spec's examples. -/
def start (m : Memory) (rs : List (Reg × Word)) : State :=
  rs.foldl (fun s p => s.setReg p.1 p.2) (State.resetAt 0x00400000#32 m)

/-- The next state of an outcome, if it is one. -/
def nextOf : Host.Outcome State Fault Refusal → Option State
  | .next t => some t
  | .fault _ => none
  | .refused _ => none

theorem eq_next_of_nextOf {o : Host.Outcome State Fault Refusal} {t : State} (h : nextOf o = some t) :
    o = .next t := by
  cases o with
  | next u =>
    injection h with h
    exact h ▸ rfl
  | fault f => cases h
  | refused r => cases h

/-- What a step of a state leaves in a register, the cursor and the PC. -/
def after (s : State) (r : Reg) : Option (Word × Int × Word) :=
  (nextOf (step s)).map fun t => (t.reg r, t.idx, t.pc)

/-! ## Well-formedness: the one check and the terms around it (R54, R58) -/

theorem smoke_sll_all_zero_is_ill_formed : (Instr.sll 0 0 0 0#5).wf = false := by decide
theorem smoke_sll_with_shift_is_well_formed : (Instr.sll 0 0 1 0#5).wf = true := by decide
theorem smoke_sll_with_ignored_bits_is_well_formed : (Instr.sll 0 0 0 11#5).wf = true := by decide
theorem smoke_addi_all_zero_is_well_formed : (Instr.addi 0 0 0#16).wf = true := by decide

/-! ## One word for each constructor, field by field (R47 to R52; values of S1) -/

theorem test_decode_nop : decode 0b00000000000000000000000000000000#32 = .ok .nop := by decide
theorem test_decode_addi :
    decode 0b001000_01001_01000_1111111111111111#32 = .ok (.addi 8 9 0xFFFF#16) := by decide
theorem test_decode_andi :
    decode 0b001100_01011_01100_0000000000001100#32 = .ok (.andi 12 11 12#16) := by decide
theorem test_decode_add :
    decode 0b000000_01000_01001_01010_00101_100000#32 = .ok (.add 10 8 9 5#5) := by decide
theorem test_decode_srl :
    decode 0b000000_01001_00000_01010_00001_000010#32 = .ok (.srl 10 9 1 0#5) := by decide
theorem test_decode_sll :
    decode 0b000000_01001_01011_01000_00100_000000#32 = .ok (.sll 8 9 4 11#5) := by decide
theorem test_decode_beq :
    decode 0b000100_01000_01001_0000000000000001#32 = .ok (.beq 8 9 1#16) := by decide
theorem test_decode_bne :
    decode 0b000101_01000_00000_1111111111111101#32 = .ok (.bne 8 0 0xFFFD#16) := by decide
theorem test_decode_unmatched_funct :
    decode 0x00004001#32 = .error (.unmatchedWord 0x00004001#32) := by decide
theorem test_table_word_addi : decodeTableWord 32 0x20080005 = some (.addi 8 0 5#16) := by decide
theorem test_encode_sll : encode (.sll 10 9 4 0#5) = 0x01205100#32 := by decide

/-! ## One step for each instruction (95_test_vectors.md, section 2) -/

/-- `x[9] = 0xFFFFFFFF`, `0x21280001`: the sum wraps. -/
theorem test_addi_wraps :
    after (start [0x21280001#32] [(9, 0xFFFFFFFF#32)]) 8 = some (0#32, 1, 0x00400004#32) := by decide

/-- `0x2108FFFF` on `x[8] = 0`: the immediate is signed and the register is its own source. -/
theorem test_addi_minus_one :
    after (start [0x2108FFFF#32] []) 8 = some (0xFFFFFFFF#32, 1, 0x00400004#32) := by decide

/-- `x[9] = 0xFFFFFFFF`, `0x31288000`: zero-extended, not `0xFFFF8000`. -/
theorem test_andi_zero_extends :
    after (start [0x31288000#32] [(9, 0xFFFFFFFF#32)]) 8 =
      some (0x00008000#32, 1, 0x00400004#32) := by decide

/-- `x[8] = 0x7FFFFFFF`, `x[9] = 1`, `0x01095020`: no overflow trap. -/
theorem test_add_signed_overflow :
    after (start [0x01095020#32] [(8, 0x7FFFFFFF#32), (9, 1#32)]) 10 =
      some (0x80000000#32, 1, 0x00400004#32) := by decide

/-- `0x01095160`: the `shamt` field of `add` is ignored. -/
theorem test_add_ignores_shamt :
    after (start [0x01095160#32] [(8, 1#32), (9, 2#32)]) 10 =
      some (3#32, 1, 0x00400004#32) := by decide

/-- `x[9] = 0xF0000000`, `0x01204102`: zeros are shifted in, not sign bits. -/
theorem test_srl_is_logical :
    after (start [0x01204102#32] [(9, 0xF0000000#32)]) 8 =
      some (0x0F000000#32, 1, 0x00400004#32) := by decide

/-- `0x00095100`, the MIPS32 word of `sll $t2, $t1, 4`: here the source is bits 25:21, so 0. -/
theorem test_sll_source_is_bits_25_21 :
    after (start [0x00095100#32] [(9, 1#32)]) 10 = some (0#32, 1, 0x00400004#32) := by decide

/-- `x[9] = 3`, `0x012047C0`: the bit shifted out is lost. -/
theorem test_sll_by_31 :
    after (start [0x012047C0#32] [(9, 3#32)]) 8 = some (0x80000000#32, 1, 0x00400004#32) := by decide

/-- `beq` taken with offset 0: cursor by 1, PC unchanged (R90). -/
theorem test_beq_taken_offset_zero :
    after (start [0x11090000#32] [(8, 3#32), (9, 3#32)]) 10 = some (0#32, 1, 0x00400000#32) := by
  decide

/-- `0x11088000`, offset -32768: the cursor becomes -32767. -/
theorem test_beq_taken_far_back :
    after (start [0x11088000#32] []) 10 = some (0#32, -32767, 0x003E0000#32) := by decide

/-- `bne` taken with offset 1 (R91). -/
theorem test_bne_taken :
    after (start [0x15090001#32] [(8, 1#32)]) 10 = some (0#32, 2, 0x00400004#32) := by decide

/-- `bne` of a register with itself is never taken. -/
theorem test_bne_same_register :
    after (start [0x1508FFFF#32] [(8, 9#32)]) 8 = some (9#32, 1, 0x00400004#32) := by decide

/-- S7: the sentinel halts in place. -/
theorem test_nop_halts :
    nextOf (step (start [0#32] [])) = some { start [0#32] [] with status := .halted } := by decide

/-- `0x8C080000`: an unmatched word is a no-op step. -/
theorem test_unmatched_steps :
    after (start [0x8C080000#32] []) 8 = some (0#32, 1, 0x00400004#32) := by decide

/-- `0x000B0000` is an `sll` with ignored bits and no sentinel: it steps. -/
theorem test_sll_ignored_bits_is_no_sentinel :
    after (start [0x000B0000#32] []) 0 = some (0#32, 1, 0x00400004#32) := by decide

/-! ## The assembler (30_encoding.md R69, 95_test_vectors.md S1, S5, S6, S8) -/

theorem test_assemble_s5 :
    Asm.assemble ["beq $t0 $t1 L".toList, "addi $t2 $zero 1".toList, "L: addi $t3 $zero 2".toList] =
      .ok [0x11090001#32, 0x200A0001#32, 0x200B0002#32] := by decide

theorem test_assemble_s8_first_label :
    Asm.assemble ["beq $zero $zero L".toList, "L: addi $t0 $zero 1".toList, "L: nop".toList] =
      .ok [0x10000000#32, 0x20080001#32, 0#32] := by decide

theorem test_assemble_s6_immediate_range :
    Asm.assemble ["addi $t0 $zero 40000".toList] = .error (.outOfRange 40000) := by decide

theorem test_assemble_s6_shift_range :
    Asm.assemble ["srl $t0 $t1 40".toList] = .error (.outOfRange 40) := by decide

theorem test_assemble_negative_immediate :
    Asm.assemble ["addi $t0 $t1 -1".toList, "sll $t2 $t1 4".toList, "add $t2 $t0 $t1".toList] =
      .ok [0x2128FFFF#32, 0x01205100#32, 0x01095020#32] := by decide

theorem test_assemble_errors :
    Asm.assemble ["L:".toList] = .error .parse ∧
    Asm.assemble ["li $t0 5".toList] = .error (.unknownOpcode "li".toList) ∧
    Asm.assemble ["addi $8 $zero 5".toList] = .error (.unknownRegister "$8".toList) ∧
    Asm.assemble ["beq $t0 $t1 M".toList] = .error (.unresolvedLabel "M".toList) ∧
    Asm.assemble ["andi $t1 $zero 0xFFFF".toList] = .error (.outOfRange 65535) := by decide

/-! ## Witnesses: for each statement with hypotheses, values that meet them

A name `witness_<statement>` says which statement it serves; a statement with several clauses has one
part for each clause. -/

theorem witness_EntryExecutesWordZeroOrHaltsAtOnce :
    ([0x20080005#32] : Memory)[0]? = some 0x20080005#32 ∧ 0x20080005#32 ≠ 0#32 ∧
    ([] : Memory) = [] ∧ ([0#32] : Memory)[0]? = some 0#32 := by decide

/-- A running state at `addi $t0 $zero 5`. -/
theorem witness_StepRunsTheDecodedInstruction :
    (start [0x20080005#32] []).AtInstr (.addi 8 0 5#16) :=
  ⟨0x20080005#32, ⟨rfl, by decide, rfl⟩, by decide⟩

theorem witness_SentinelHaltsAndChangesNothingElse : (start [0#32] []).AtWord 0#32 :=
  ⟨rfl, by decide, rfl⟩

/-- The empty stream at cursor 0, and a cursor far past the end. -/
theorem witness_EndOfStreamHaltsWithoutFetching :
    ((start [] []).status = .running ∧ ((start [] []).imem.length : Int) ≤ (start [] []).idx) ∧
    ({ start [0#32] [] with idx := 101 }.status = .running ∧
      (({ start [0#32] [] with idx := 101 } : State).imem.length : Int) ≤ 101) := by decide

theorem witness_UnmatchedWordIsANoOpStep :
    (start [0xFFFFFFFF#32] []).AtWord 0xFFFFFFFF#32 ∧
    (∀ row ∈ opcodeTable, row.matches 0xFFFFFFFF#32 = false) ∧
    Asm.assemble ["nop".toList] = .ok [0#32] ∧ 0#32 ∈ [0#32] :=
  ⟨⟨rfl, by decide, rfl⟩, by decide, by decide, by decide⟩

theorem witness_HaltedBlockNeverChanges : (start [] []).halt.status = .halted := rfl

/-- A cursor just below 0, a cursor at 0, and a halted block with a cursor below 0. -/
theorem witness_StepFaultsExactlyOnACursorBeforeStart :
    (({ start [] [] with idx := -1 } : State).status = .running ∧ (-1 : Int) < 0) ∧
    (0 : Int) ≤ (start [] []).idx ∧
    ({ start [] [] with idx := -1, status := .halted } : State).status = .halted := by decide

theorem witness_BeqMovesCursorWhenEqual :
    (start [] [(8, 3#32), (9, 3#32)]).reg 8 = (start [] [(8, 3#32), (9, 3#32)]).reg 9 ∧
    (start [] [(8, 3#32), (9, 4#32)]).reg 8 ≠ (start [] [(8, 3#32), (9, 4#32)]).reg 9 := by decide

theorem witness_BneMovesCursorWhenDifferent :
    (start [] [(8, 1#32)]).reg 8 ≠ (start [] [(8, 1#32)]).reg 9 ∧
    (start [] []).reg 8 = (start [] []).reg 8 := by decide

/-- A register that stays, a register that a step changes, and two states that agree on the sources
and differ elsewhere. -/
theorem witness_OnlyNamedRegistersAreWrittenAndRead :
    (∃ t, exec (.addi 8 0 5#16) (start [] []) = .next t ∧
      (Instr.addi 8 0 5#16).dest ≠ some 9) ∧
    (∃ t, step (start [0x20080005#32] []) = .next t ∧
      t.reg 8 ≠ (start [0x20080005#32] []).reg 8) ∧
    (∃ t, exec (.add 10 8 9 0#5) (start [] [(8, 1#32), (9, 2#32)]) = .next t ∧
      (∀ r ∈ (Instr.add 10 8 9 0#5).sources,
        (start [] [(8, 1#32), (9, 2#32), (11, 7#32)]).reg r =
          (start [] [(8, 1#32), (9, 2#32)]).reg r) ∧
      (start [] [(8, 1#32), (9, 2#32), (11, 7#32)]).pc = (start [] [(8, 1#32), (9, 2#32)]).pc ∧
      (start [] [(8, 1#32), (9, 2#32), (11, 7#32)]).idx = (start [] [(8, 1#32), (9, 2#32)]).idx ∧
      (start [] [(8, 1#32), (9, 2#32), (11, 7#32)]).status =
        (start [] [(8, 1#32), (9, 2#32)]).status) :=
  ⟨⟨_, rfl, by decide⟩, ⟨(start [0x20080005#32] [(8, 5#32)]).advance,
    eq_next_of_nextOf (by decide), by decide⟩, ⟨_, rfl, by decide, by decide, by decide, by decide⟩⟩

theorem witness_SourcesAreReadBeforeTheDestinationIsWritten : (start [] []).reg 0 = 0#32 := by decide

/-- The three rows of the table: a halt, a normal step, a taken branch. -/
theorem witness_CursorAndPcMoveByTheTable :
    (∃ t, step (start [] []) = .next t) ∧
    (∃ t, step (start [0x20080005#32] []) = .next t) ∧
    (∃ t, step (start [0x1000FFFF#32] []) = .next t) :=
  ⟨⟨(start [] []).halt, eq_next_of_nextOf (by decide)⟩,
    ⟨(start [0x20080005#32] [(8, 5#32)]).advance, eq_next_of_nextOf (by decide)⟩,
    ⟨(start [0x1000FFFF#32] []).takeBranch (-1), eq_next_of_nextOf (by decide)⟩⟩

/-- P4, three steps: three taken branches. -/
theorem witness_PcFollowsCursorLessTakenBranches :
    nextOf (Sys2Proof.core.run 3 (State.resetAt 0x00400000#32 [0x1000FFFF#32])) =
      some { State.resetAt 0x003FFFF4#32 [0x1000FFFF#32] with idx := 0 } ∧
    takenBranches 3 (State.resetAt 0x00400000#32 [0x1000FFFF#32]) = 3 :=
  ⟨by decide, by decide⟩

/-- The PC wraps past 2^32 and stays aligned with a base of 0. -/
theorem witness_StepKeepsPcAligned :
    (State.resetAt 0xFFFFFFFC#32 [0x20080001#32]).PcAligned 0#32 ∧
    (nextOf (step (State.resetAt 0xFFFFFFFC#32 [0x20080001#32]))).map State.pc = some 0#32 :=
  ⟨rfl, by decide⟩

/-- Two states that differ in the PC; a run that goes on and a run that faults. -/
theorem witness_PcIsReadByNothing :
    SameButPc (State.resetAt 0#32 [0x1108FFFE#32]) (State.resetAt 4#32 [0x1108FFFE#32]) ∧
    (nextOf (Sys2Proof.core.run 1 (State.resetAt 0#32 [0x1108FFFE#32]))).isSome = true ∧
    (nextOf (Sys2Proof.core.run 2 (State.resetAt 0#32 [0x1108FFFE#32]))).isNone = true :=
  ⟨⟨rfl, rfl, rfl, rfl⟩, by decide, by decide⟩

theorem witness_StreamIsConstantDuringARun :
    (nextOf (Sys2Proof.core.run 2 (start [0x20080005#32, 0x21080005#32] []))).map (State.reg · 8) =
      some 10#32 := by decide

/-- A step that halts at the sentinel, one that halts past the end, one that does not halt. -/
theorem witness_RunEndsOnlyAtSentinelOrEndOfStream :
    (nextOf (step (start [0#32] []))).map State.status = some .halted ∧
    (nextOf (step (start [] []))).map State.status = some .halted ∧
    (nextOf (step (start [0x20080005#32] []))).map State.status = some .running ∧
    (start [0#32] []).status = .running ∧ (start [] []).status = .running := by decide

/-- S5, taken: the word at the target is `addi $t3 $zero 2`. -/
theorem witness_TakenBranchIsFollowedByItsTarget :
    (start [0x11090001#32, 0x200A0001#32, 0x200B0002#32] []).AtInstr (.beq 8 9 1#16) ∧
    (start [0x11090001#32, 0x200A0001#32, 0x200B0002#32] []).branchTaken = true ∧
    (Instr.beq 8 9 1#16).offset = some 1#16 ∧
    (0 : Int) + signedValue 1#16 + 1 = 2 ∧
    ([0x11090001#32, 0x200A0001#32, 0x200B0002#32] : Memory)[2]? = some 0x200B0002#32 ∧
    decode 0x200B0002#32 = .ok (.addi 11 0 2#16) :=
  ⟨⟨0x11090001#32, ⟨rfl, by decide, rfl⟩, by decide⟩, by decide, rfl, by decide, rfl, by decide⟩

/-- A target just past the end (offset 0 in the last word) and one just before the start
(offset -2 in word 0). -/
theorem witness_TargetOutsideTheStreamEndsTheRun :
    ((start [0x11080000#32] []).AtInstr (.beq 8 8 0#16) ∧
      (start [0x11080000#32] []).branchTaken = true ∧
      (1 : Int) ≤ 0 + signedValue 0#16 + 1) ∧
    ((start [0x1108FFFE#32] []).AtInstr (.beq 8 8 0xFFFE#16) ∧
      (start [0x1108FFFE#32] []).branchTaken = true ∧
      0 + signedValue 0xFFFE#16 + 1 < 0) :=
  ⟨⟨⟨0x11080000#32, ⟨rfl, by decide, rfl⟩, by decide⟩, by decide, by decide⟩,
    ⟨⟨0x1108FFFE#32, ⟨rfl, by decide, rfl⟩, by decide⟩, by decide, by decide⟩⟩

/-- P4. -/
theorem witness_BranchOntoItselfNeverEnds :
    signedValue 0xFFFF#16 = -1 ∧ (start [0x1000FFFF#32] []).AtInstr (.beq 0 0 0xFFFF#16) :=
  ⟨by decide, 0x1000FFFF#32, ⟨rfl, by decide, rfl⟩, by decide⟩

/-- A stream with a forward branch over its second word. -/
theorem witness_ForwardStreamsTerminate :
    0 ≤ (start [0x11090001#32, 0x200A0001#32, 0x200B0002#32] []).idx ∧
    BranchesGoForward (start [0x11090001#32, 0x200A0001#32, 0x200B0002#32] []).imem := by
  refine ⟨by decide, fun w i o hw hd ho => ?_⟩
  have h1 : decode 0x11090001#32 = .ok (.beq 8 9 1#16) := by decide
  have h2 : decode 0x200A0001#32 = .ok (.addi 10 0 1#16) := by decide
  have h3 : decode 0x200B0002#32 = .ok (.addi 11 0 2#16) := by decide
  have hw : w = 0x11090001#32 ∨ w = 0x200A0001#32 ∨ w = 0x200B0002#32 := by
    rcases hw with _ | ⟨_, _ | ⟨_, _ | ⟨_, ⟨⟩⟩⟩⟩
    · exact .inl rfl
    · exact .inr (.inl rfl)
    · exact .inr (.inr rfl)
  rcases hw with rfl | rfl | rfl
  · rw [h1] at hd
    injection hd with hd
    subst hd
    injection ho with ho
    subst ho
    decide
  · rw [h2] at hd
    injection hd with hd
    subst hd
    cases ho
  · rw [h3] at hd
    injection hd with hd
    subst hd
    cases ho

/-- A stream of one branch onto itself, which stays inside, and its step. -/
theorem witness_BranchesInsideKeepTheCursorFromTheStart :
    BranchesStayInside (start [0x1000FFFF#32] []).imem ∧ 0 ≤ (start [0x1000FFFF#32] []).idx ∧
    ∃ t, step (start [0x1000FFFF#32] []) = .next t := by
  refine ⟨fun c w i o hw hd ho => ?_, by decide,
    (start [0x1000FFFF#32] []).takeBranch (-1), eq_next_of_nextOf (by decide)⟩
  have h1 : decode 0x1000FFFF#32 = .ok (.beq 0 0 0xFFFF#16) := by decide
  cases c with
  | zero =>
    have hw : w = 0x1000FFFF#32 := by
      injection hw with hw
      exact hw.symm
    subst hw
    rw [h1] at hd
    injection hd with hd
    subst hd
    injection ho with ho
    subst ho
    decide
  | succ c => cases hw

/-- One word for each clause, with every field at its greatest value. -/
theorem witness_DecoderReadsEveryFieldFromItsBits :
    0x23FFFFFF / 2 ^ 26 = 0x08 ∧ 0x33FFFFFF / 2 ^ 26 = 0x0C ∧
    (0x03FFFFE0 / 2 ^ 26 = 0x00 ∧ 0x03FFFFE0 % 2 ^ 6 = 0x20) ∧
    (0x03FFFFC2 / 2 ^ 26 = 0x00 ∧ 0x03FFFFC2 % 2 ^ 6 = 0x02) ∧
    (0x03FFFFC0 ≠ 0 ∧ 0x03FFFFC0 / 2 ^ 26 = 0x00 ∧ 0x03FFFFC0 % 2 ^ 6 = 0x00) ∧
    0x13FFFFFF / 2 ^ 26 = 0x04 ∧ 0x17FFFFFF / 2 ^ 26 = 0x05 := by decide

theorem witness_DecodeOfEncodeIsTheInstruction :
    (Instr.sll 31 31 31 31#5).wf = true ∧ (Instr.sll 0 0 0 0#5).wf = false := by decide

theorem witness_EncodeOfDecodeIsTheWord :
    decode 0x03FFFFC0#32 = .ok (.sll 31 31 31 31#5) := by decide

theorem witness_RowsExcludeEachOtherButForTheSentinel :
    ∃ a ∈ opcodeTable, ∃ b ∈ opcodeTable, a ≠ b ∧ a.matches 0#32 = true ∧ b.matches 0#32 = true :=
  ⟨⟨.nop, 0xFFFFFFFF#32, 0#32⟩, by decide, ⟨.sll, 0xFC00003F#32, 0#32⟩, by decide, by decide,
    by decide, by decide⟩

/-- The first instruction after reset, and one placed from a cursor below 0. -/
theorem witness_PlacedInstructionIsTheNextOneRun :
    decodeTableWord 32 0x20080005 = some (.addi 8 0 5#16) ∧
    (nextOf (step (State.reset.withFetchWord 32 0x20080005))).map (State.reg · 8) = some 5#32 ∧
    (nextOf (step (({ State.reset with idx := -3 } : State).withFetchWord 32 0x20080005))).map
      (State.reg · 8) = some 5#32 := by decide

theorem witness_ResultIsObservableOnlyAfterTheHalt :
    (start [] []).status = .running ∧ (start [] []).halt.status = .halted := ⟨rfl, rfl⟩

theorem witness_RegisterNamesGiveTheirIndices : ∀ r, Asm.registerName r ≠ "$8".toList := by decide

/-- Both ends of both ranges, inside and outside. -/
theorem witness_FieldsAreRangeCheckedNeverTruncated :
    Asm.packImm (-32768) = .ok 0x8000#16 ∧ Asm.packImm 32767 = .ok 0x7FFF#16 ∧
    Asm.packImm (-32769) = .error (.outOfRange (-32769)) ∧
    Asm.packImm 32768 = .error (.outOfRange 32768) ∧
    Asm.packShamt 0 = .ok 0 ∧ Asm.packShamt 31 = .ok 31 ∧
    Asm.packShamt (-1) = .error (.outOfRange (-1)) ∧ Asm.packShamt 32 = .error (.outOfRange 32) := by
  decide

/-- Two lines with the same label. -/
theorem witness_DuplicateLabelsResolveToTheFirst :
    Asm.findLabel [⟨none, ['a'], []⟩, ⟨some ['L'], ['a'], []⟩, ⟨some ['L'], ['a'], []⟩] ['L'] =
      .ok 1 := by decide

theorem witness_AssemblyIsOneWordPerLineOrNothing :
    Asm.assembleLines [⟨none, "nop".toList, []⟩] = .ok [0#32] := by decide

/-- S8: a `beq`, and a `bne`, at line 0 with its label at line 1, taken. -/
theorem witness_AssembledBranchContinuesAtItsLabel :
    (∃ ls ws, Asm.assembleLines ls = .ok ws ∧
      ls[0]? = some ⟨none, Asm.mnemonicOf .beq, ["$zero".toList, "$zero".toList, ['L']]⟩ ∧
      Asm.findLabel ls ['L'] = .ok 1 ∧ (start ws []).status = .running ∧
      (start ws []).imem = ws ∧ (start ws []).idx = 0 ∧ (start ws []).branchTaken = true) ∧
    (∃ ls ws, Asm.assembleLines ls = .ok ws ∧
      ls[0]? = some ⟨none, Asm.mnemonicOf .bne, ["$t0".toList, "$zero".toList, ['L']]⟩ ∧
      Asm.findLabel ls ['L'] = .ok 1 ∧ (start ws [(8, 1#32)]).status = .running ∧
      (start ws [(8, 1#32)]).imem = ws ∧ (start ws [(8, 1#32)]).idx = 0 ∧
      (start ws [(8, 1#32)]).branchTaken = true) :=
  ⟨⟨[⟨none, Asm.mnemonicOf .beq, ["$zero".toList, "$zero".toList, ['L']]⟩,
      ⟨some ['L'], "nop".toList, []⟩], [0x10000000#32, 0#32], by decide, rfl, by decide, rfl, rfl,
      rfl, by decide⟩,
    ⟨[⟨none, Asm.mnemonicOf .bne, ["$t0".toList, "$zero".toList, ['L']]⟩,
      ⟨some ['L'], "nop".toList, []⟩], [0x15000000#32, 0#32], by decide, rfl, by decide, rfl, rfl,
      rfl, by decide⟩⟩

theorem witness_AssembledStreamsNeverStop :
    Asm.assemble ["self: beq $zero $zero self".toList] = .ok [0x1000FFFF#32] ∧
    (start [0x1000FFFF#32] []).imem = [0x1000FFFF#32] ∧ 0 ≤ (start [0x1000FFFF#32] []).idx := by
  decide

end Sys2Proof.Tests
end

section
/-! SUPPORT. The register file: what reset puts into it, which register an instruction or a step
writes, and which registers an instruction reads (10_state.md, sections 1 and 2). -/

namespace Sys2Proof.Machine

/-! ## Reset -/

@[simp] theorem State.resetAt_reg (base : Word) (m : Memory) (r : Reg) :
    (State.resetAt base m).reg r = 0#32 := by
  simp [State.reg, State.resetAt, Vector.get_eq_getElem]

/-- Settles O1, from the lemma of each field of the reset state. -/
theorem resetClearsRegistersAndSetsPc : Obligations.ResetClearsRegistersAndSetsPc :=
  fun base m => ⟨State.resetAt_reg base m, State.resetAt_pc base m⟩

/-! ## The shared step of each instruction -/

theorem exec_nop (s : State) : exec .nop s = haltStep s := rfl

theorem exec_addi (rt rs : Reg) (imm : BitVec 16) (s : State) :
    exec (.addi rt rs imm) s = writeStep rt (aluAdd (s.reg rs) (sext32 imm)) s := rfl

theorem exec_andi (rt rs : Reg) (imm : BitVec 16) (s : State) :
    exec (.andi rt rs imm) s = writeStep rt (aluAnd (s.reg rs) (zext32 imm)) s := rfl

theorem exec_add (rd rs rt : Reg) (unused : BitVec 5) (s : State) :
    exec (.add rd rs rt unused) s = writeStep rd (aluAdd (s.reg rs) (s.reg rt)) s := rfl

theorem exec_srl (rd rs : Reg) (shamt : Shamt) (unused : BitVec 5) (s : State) :
    exec (.srl rd rs shamt unused) s = writeStep rd (aluSrl (s.reg rs) shamt) s := rfl

theorem exec_sll (rd rs : Reg) (shamt : Shamt) (unused : BitVec 5) (s : State) :
    exec (.sll rd rs shamt unused) s = writeStep rd (aluSll (s.reg rs) shamt) s := rfl

theorem exec_beq (rs rt : Reg) (offset : BitVec 16) (s : State) :
    exec (.beq rs rt offset) s = branchStep (condEqual (s.reg rs) (s.reg rt)) offset s := rfl

theorem exec_bne (rs rt : Reg) (offset : BitVec 16) (s : State) :
    exec (.bne rs rt offset) s = branchStep (condDiffer (s.reg rs) (s.reg rt)) offset s := rfl

/-! ## The destination holds the value computed from the old state (R13) -/

theorem exec_writes_of_eq_writeStep {i : Instr} {d : Reg} {v : Word} {s : State}
    (h : exec i s = writeStep d v s) : ∃ t, exec i s = .next t ∧ t.reg d = v := by
  obtain ⟨t, ht, hv, -⟩ := writeStep_next d v s
  exact ⟨t, h.trans ht, hv⟩

/-- The example of R13: the second `addi` reads what the first one wrote. -/
theorem exec_addi_five_twice (s : State) (r z : Reg) (hz : s.reg z = 0#32) :
    ∃ t u, exec (.addi r z 5#16) s = .next t ∧ exec (.addi r r 5#16) t = .next u ∧
      u.reg r = 10#32 := by
  obtain ⟨t, ht, hfirst⟩ := exec_writes_of_eq_writeStep (exec_addi r z 5#16 s)
  obtain ⟨u, hu, hsecond⟩ := exec_writes_of_eq_writeStep (exec_addi r r 5#16 t)
  refine ⟨t, u, ht, hu, ?_⟩
  rw [hsecond, hfirst, hz]
  decide

/-- Settles O19: each form is a `writeStep` of a value computed from the old state. -/
theorem sourcesAreReadBeforeTheDestinationIsWritten :
    Obligations.SourcesAreReadBeforeTheDestinationIsWritten :=
  ⟨fun s r q imm n u =>
    ⟨exec_writes_of_eq_writeStep (exec_addi r r imm s),
      exec_writes_of_eq_writeStep (exec_andi r r imm s),
      exec_writes_of_eq_writeStep (exec_add r r q u s),
      exec_writes_of_eq_writeStep (exec_add r q r u s),
      exec_writes_of_eq_writeStep (exec_add r r r u s),
      exec_writes_of_eq_writeStep (exec_srl r r n u s),
      exec_writes_of_eq_writeStep (exec_sll r r n u s)⟩,
    exec_addi_five_twice⟩

/-! ## Only the named destination is written (R12) -/

theorem exec_reg_of_dest_ne {i : Instr} {s t : State} (h : exec i s = .next t) {r : Reg}
    (hr : i.dest ≠ some r) : t.reg r = s.reg r := by
  rcases exec_cases i s with ⟨-, he⟩ | ⟨d, v, hd, he⟩ | ⟨o, -, he⟩ | ⟨o, -, he⟩
  all_goals obtain rfl := Host.Outcome.next.inj (he.symm.trans h)
  · exact State.halt_reg s r
  · have hdr : d ≠ r := fun e => hr (e ▸ hd)
    simp [hdr]
  · exact State.takeBranch_reg s _ r
  · exact State.advance_reg s r

theorem exists_atInstr_dest_of_step_reg_ne {s t : State} (h : step s = .next t) {r : Reg}
    (hr : t.reg r ≠ s.reg r) : ∃ i, s.AtInstr i ∧ i.dest = some r := by
  rcases step_next_cases h with ⟨-, rfl⟩ | ⟨-, -, rfl⟩ | ⟨w, i, hw, hd, he⟩ | ⟨w, e, -, -, rfl⟩
  · exact absurd rfl hr
  · exact absurd (State.halt_reg s r) hr
  · exact ⟨i, ⟨w, hw, hd⟩, not_imp_comm.1 (exec_reg_of_dest_ne he) hr⟩
  · exact absurd (State.advance_reg s r) hr

/-! ## Only the named sources are read (R12) -/

/-- Two states that agree on PC, cursor and status, and on the register `d` if there is one. -/
def AgreeOn (d : Option Reg) (s' s : State) : Prop :=
  s'.pc = s.pc ∧ s'.idx = s.idx ∧ s'.status = s.status ∧ ∀ r, d = some r → s'.reg r = s.reg r

/-- The two outcomes are next states that agree. -/
def NextsAgreeOn (d : Option Reg) (o' o : Host.Outcome State Fault Refusal) : Prop :=
  ∃ t' t, o' = .next t' ∧ o = .next t ∧ AgreeOn d t' t

section
variable {s' s : State} (h : AgreeOn none s' s)
include h

theorem haltStep_agree : NextsAgreeOn none (haltStep s') (haltStep s) := by
  obtain ⟨hpc, hidx, -, -⟩ := h
  exact ⟨s'.halt, s.halt, rfl, rfl, hpc, hidx, rfl, nofun⟩

theorem writeStep_agree (d : Reg) (v : Word) :
    NextsAgreeOn (some d) (writeStep d v s') (writeStep d v s) := by
  obtain ⟨hpc, hidx, hstatus, -⟩ := h
  refine ⟨_, _, rfl, rfl, by simp [hpc], by simp [hidx], by simp [hstatus], fun r hr => ?_⟩
  obtain rfl := Option.some.inj hr
  simp

theorem branchStep_agree (taken : Bool) (offset : BitVec 16) :
    NextsAgreeOn none (branchStep taken offset s') (branchStep taken offset s) := by
  obtain ⟨hpc, hidx, hstatus, -⟩ := h
  cases taken with
  | true => exact ⟨_, _, rfl, rfl, by simp [hpc], by simp [hidx], by simp [hstatus], nofun⟩
  | false => exact ⟨_, _, rfl, rfl, by simp [hpc], by simp [hidx], by simp [hstatus], nofun⟩

/-- An instruction runs alike in two states that agree on its sources: its shared step gets the same
arguments in both. -/
theorem exec_agree {i : Instr} (hsrc : ∀ r ∈ i.sources, s'.reg r = s.reg r) :
    NextsAgreeOn i.dest (exec i s') (exec i s) := by
  cases i with
  | nop =>
    rw [exec_nop, exec_nop]
    exact haltStep_agree h
  | addi rt rs imm =>
    rw [exec_addi, exec_addi, hsrc rs (by simp [Instr.sources])]
    exact writeStep_agree h rt _
  | andi rt rs imm =>
    rw [exec_andi, exec_andi, hsrc rs (by simp [Instr.sources])]
    exact writeStep_agree h rt _
  | add rd rs rt u =>
    rw [exec_add, exec_add, hsrc rs (by simp [Instr.sources]), hsrc rt (by simp [Instr.sources])]
    exact writeStep_agree h rd _
  | srl rd rs n u =>
    rw [exec_srl, exec_srl, hsrc rs (by simp [Instr.sources])]
    exact writeStep_agree h rd _
  | sll rd rs n u =>
    rw [exec_sll, exec_sll, hsrc rs (by simp [Instr.sources])]
    exact writeStep_agree h rd _
  | beq rs rt o =>
    rw [exec_beq, exec_beq, hsrc rs (by simp [Instr.sources]), hsrc rt (by simp [Instr.sources])]
    exact branchStep_agree h _ o
  | bne rs rt o =>
    rw [exec_bne, exec_bne, hsrc rs (by simp [Instr.sources]), hsrc rt (by simp [Instr.sources])]
    exact branchStep_agree h _ o

end

/-- Settles O18: the frame of `exec`, lifted to the step by the step's inversion, and the agreement of
`exec` in two states that agree on the sources. -/
theorem onlyNamedRegistersAreWrittenAndRead : Obligations.OnlyNamedRegistersAreWrittenAndRead := by
  refine ⟨fun i s t h r => exec_reg_of_dest_ne h, fun s t h r => exists_atInstr_dest_of_step_reg_ne h,
    fun i s s' t h hsrc hpc hidx hstatus => ?_⟩
  obtain ⟨t', u, ht', hu, hagree⟩ := exec_agree ⟨hpc, hidx, hstatus, nofun⟩ hsrc
  obtain rfl := Host.Outcome.next.inj (hu.symm.trans h)
  exact ⟨t', ht', hagree⟩

end Sys2Proof.Machine
end

section
/-! SUPPORT. The instruction stream is read-only during execution (20_memory.md R32). -/

namespace Sys2Proof.Machine

theorem exec_imem {i : Instr} {s t : State} (h : exec i s = .next t) : t.imem = s.imem := by
  rcases exec_cases i s with ⟨-, he⟩ | ⟨d, v, -, he⟩ | ⟨o, -, he⟩ | ⟨o, -, he⟩
  all_goals obtain rfl := Host.Outcome.next.inj (he.symm.trans h)
  · exact State.halt_imem s
  · exact (State.advance_imem _).trans (State.setReg_imem s d v)
  · exact State.takeBranch_imem s _
  · exact State.advance_imem s

theorem step_imem {s t : State} (h : step s = .next t) : t.imem = s.imem := by
  rcases step_next_cases h with ⟨-, rfl⟩ | ⟨-, -, rfl⟩ | ⟨w, i, -, -, he⟩ | ⟨w, e, -, -, rfl⟩
  · rfl
  · exact State.halt_imem s
  · exact exec_imem he
  · exact State.advance_imem s

/-- Settles O26, by induction on the run: every step keeps the stream. -/
theorem streamIsConstantDuringARun : Obligations.StreamIsConstantDuringARun :=
  run_induction (P := fun s t => t.imem = s.imem) (fun _ => rfl)
    fun _ _ _ hstep hrest => hrest.trans (step_imem hstep)

end Sys2Proof.Machine
end

section
/-! SUPPORT. Which line a label names (30_encoding.md R64, R65). -/

namespace Sys2Proof.Asm

/-- The lookup answers the first line with the label; `findLabel_ok_iff` and the library's account of
`List.findIdx?`. -/
theorem findLabel_ok_iff_first (ls : List Line) (target : Text) (t : Nat) :
    findLabel ls target = .ok t ↔ ∃ ht : t < ls.length, ls[t].label = some target ∧
      ∀ (j : Nat) (hj : j < t), (ls[j]'(hj.trans ht)).label ≠ some target := by
  simp only [findLabel_ok_iff, List.findIdx?_eq_some_iff_getElem, beq_iff_eq, ne_eq]

/-- Settles O43: `findLabel_ok_iff_first`, with the bounded reads of the lines turned into optional
ones. -/
theorem duplicateLabelsResolveToTheFirst : Obligations.DuplicateLabelsResolveToTheFirst := by
  intro ls target t
  rw [findLabel_ok_iff_first]
  constructor
  · rintro ⟨ht, hlabel, hfirst⟩
    refine ⟨⟨ls[t], List.getElem?_eq_getElem ht, hlabel⟩, fun j l hj hl => ?_⟩
    obtain ⟨-, rfl⟩ := List.getElem?_eq_some_iff.1 hl
    exact hfirst j hj
  · rintro ⟨⟨l, hl, hlabel⟩, hfirst⟩
    obtain ⟨ht, rfl⟩ := List.getElem?_eq_some_iff.1 hl
    exact ⟨ht, hlabel, fun j hj => hfirst j _ hj (List.getElem?_eq_getElem (hj.trans ht))⟩

end Sys2Proof.Asm
end

section
/-! SUPPORT. The sentinel, the end of the stream and the unmatched word: which words decode to `nop`,
which match no row, and that no encoded instruction is one of these
(43_step_sentinel_unmatched.md R101 to R103). -/

namespace Sys2Proof

/-! ## The sentinel -/

theorem build_eq_nop_iff (k : Kind) (w : Word) : build k w = .nop ↔ k = .nop := by
  cases k <;> simp [build]

theorem kindByNumber_eq_nop_iff (n : Nat) : kindByNumber n = some .nop ↔ n = 0 := by
  constructor
  · intro h
    by_contra hn
    rw [kindByNumber, if_neg hn] at h
    split_ifs at h <;> cases h
  · rintro rfl
    rfl

/-- A word decodes to `nop` exactly when it matches the row of the sentinel. -/
theorem decode_eq_nop_iff (w : Word) :
    decode w = .ok .nop ↔ w &&& 0xFFFFFFFF#32 = 0x00000000#32 := by
  have hrow : w &&& 0xFFFFFFFF#32 = 0x00000000#32 ↔ w.toNat = 0 := by
    simpa [Row.matches] using matches_whole .nop w
  rw [hrow, ← kindByNumber_eq_nop_iff, decode_ok_iff]
  constructor
  · rintro ⟨k, hk, hb⟩
    obtain rfl := (build_eq_nop_iff k w).1 hb.symm
    exact hk
  · exact fun hk => ⟨.nop, hk, rfl⟩

/-! ## The words that match no row -/

theorem classify_eq_none_iff (w : Word) :
    classify w = none ↔ ∀ row ∈ opcodeTable, row.matches w = false := by
  simp only [classify, Option.map_eq_none_iff, List.find?_eq_none, Bool.not_eq_true]

theorem decode_of_no_row {w : Word} (h : ∀ row ∈ opcodeTable, row.matches w = false) :
    decode w = .error (.unmatchedWord w) :=
  decode_of_none ((classify_eq_kindByNumber w).symm.trans ((classify_eq_none_iff w).2 h))

theorem exists_row_of_kind {w : Word} {k : Kind} (h : kindByNumber w.toNat = some k) :
    ∃ row ∈ opcodeTable, row.matches w = true := by
  by_contra hnone
  have hfalse : ∀ row ∈ opcodeTable, row.matches w = false := by simpa using hnone
  have hc := (classify_eq_none_iff w).2 hfalse
  rw [classify_eq_kindByNumber, h] at hc
  cases hc

/-! ## The word of an instruction matches a row -/

theorem encodesInRow (i : Instr) : Laws.EncodesInRow.Statement i := by
  cases i with
  | nop => exact Laws.EncodesInRow.nop
  | addi rt rs imm => exact Laws.EncodesInRow.addi rt rs imm
  | andi rt rs imm => exact Laws.EncodesInRow.andi rt rs imm
  | add rd rs rt u => exact Laws.EncodesInRow.add rd rs rt u
  | srl rd rs n u => exact Laws.EncodesInRow.srl rd rs n u
  | sll rd rs n u => exact Laws.EncodesInRow.sll rd rs n u
  | beq rs rt o => exact Laws.EncodesInRow.beq rs rt o
  | bne rs rt o => exact Laws.EncodesInRow.bne rs rt o

/-- The one term that is no instruction (R54, R58). -/
theorem eq_sll_zero_of_not_wf {i : Instr} (h : i.wf = false) : i = .sll 0 0 0 0#5 := by
  cases i with
  | sll rd rs n u => simpa [Instr.wf, and_assoc] using h
  | nop | addi | andi | add | srl | beq | bne => cases h

/-- A well-formed instruction has a word in its own row; the ill-formed term has the sentinel. -/
theorem exists_row_matches_encode (i : Instr) :
    ∃ row ∈ opcodeTable, row.matches (encode i) = true := by
  cases hw : i.wf with
  | true => exact exists_row_of_kind (encodesInRow i hw)
  | false =>
    obtain rfl := eq_sll_zero_of_not_wf hw
    exact exists_row_of_kind ((kindByNumber_eq_nop_iff _).2 (by decide))

namespace Asm

theorem eq_encode_of_mem_assembleFrom {ls rest : List Line} {c : Nat} {ws : List Word}
    (h : assembleFrom ls c rest = .ok ws) {w : Word} (hw : w ∈ ws) : ∃ i, w = encode i := by
  induction rest generalizing c ws with
  | nil =>
    obtain rfl := Except.ok.inj h
    cases hw
  | cons l rest ih =>
    unfold assembleFrom at h
    split at h
    · cases h
    next i _ =>
      split at h
      · cases h
      next tail htail =>
        obtain rfl := Except.ok.inj h
        rcases List.mem_cons.1 hw with rfl | hmem
        · exact ⟨i, rfl⟩
        · exact ih htail hmem

theorem eq_encode_of_mem_assemble {src : List Text} {ws : List Word} (h : assemble src = .ok ws)
    {w : Word} (hw : w ∈ ws) : ∃ i, w = encode i := by
  obtain ⟨ls, -, hls⟩ := assemble_ok h
  exact eq_encode_of_mem_assembleFrom hls hw

end Asm

namespace Machine

/-! ## The three steps -/

theorem stepWord_of_decode {w : Word} {i : Instr} (h : decode w = .ok i) (s : State) :
    stepWord w s = exec i s := by
  rw [stepWord, h]

theorem stepWord_of_no_row {w : Word} (h : ∀ row ∈ opcodeTable, row.matches w = false)
    (s : State) : stepWord w s = .next s.advance := by
  rw [stepWord, decode_of_no_row h, execUnmatched]

/-- Settles O5: the sentinel's row is exactly the decoder's `nop`, and `exec .nop` is the halting
step, which a step at the all-zero word therefore takes. -/
theorem sentinelHaltsAndChangesNothingElse : Obligations.SentinelHaltsAndChangesNothingElse := by
  refine ⟨decode_eq_nop_iff, fun s => ⟨s.halt, exec_nop s, halt_haltStep s⟩, fun s hs => ?_⟩
  have hzero : decode 0x00000000#32 = .ok .nop := (decode_eq_nop_iff _).2 (by decide)
  have hstep : step s = exec .nop s := (step_of_atWord hs).trans (stepWord_of_decode hzero s)
  exact ⟨s.halt, hstep.trans (exec_nop s), halt_haltStep s⟩

/-- Settles O6: past the end the fetch finds the end of the stream, and the step halts. -/
theorem endOfStreamHaltsWithoutFetching : Obligations.EndOfStreamHaltsWithoutFetching := by
  intro s hrun hend
  refine ⟨fun w hw => ?_, s.halt, step_of_endOfStream hrun hend, halt_haltStep s⟩
  rw [(s.fetch_endOfStream_iff).2 hend] at hw
  cases hw

/-- Settles O7: an unmatched word only advances, and every assembled word is the word of an
instruction, which matches a row. -/
theorem unmatchedWordIsANoOpStep : Obligations.UnmatchedWordIsANoOpStep := by
  refine ⟨fun s w hs hrow => ?_, fun src ws hasm w hw => ?_⟩
  · have hstep : step s = .next s.advance := (step_of_atWord hs).trans (stepWord_of_no_row hrow s)
    obtain ⟨hrun, -⟩ := hs
    exact ⟨s.advance, hstep, advance_normalStep s, hrun⟩
  · obtain ⟨i, rfl⟩ := Asm.eq_encode_of_mem_assemble hasm hw
    exact exists_row_matches_encode i

end Machine

end Sys2Proof
end

section
/-! SUPPORT. The first step after reset: which word of the stream it is at
(70_reset_and_hazards.md R131). -/

namespace Sys2Proof.Machine

@[simp] theorem simulatedAddress_zero (base : Word) : simulatedAddress base 0 = base := by
  simp [simulatedAddress, wrap32]

/-- The reset state is at the word of index 0, if the stream has one. -/
theorem State.resetAt_atWord_iff (base : Word) (m : Memory) (w : Word) :
    (State.resetAt base m).AtWord w ↔ m[0]? = some w := by
  simp [State.AtWord]

/-- Settles O3: the reset state is at word 0, so its step is the one of that word, which halts for
the sentinel; with an empty stream it is at the end already. -/
theorem entryExecutesWordZeroOrHaltsAtOnce :
    Obligations.EntryExecutesWordZeroOrHaltsAtOnce := by
  intro base m
  refine ⟨?_, fun w hw _ => ?_, ?_⟩
  · rw [State.resetAt_pc, simulatedAddress_zero]
  · exact step_of_atWord ((State.resetAt_atWord_iff base m w).2 hw)
  · rintro (rfl | hzero)
    · obtain ⟨-, hhalt⟩ := endOfStreamHaltsWithoutFetching (State.resetAt base []) rfl (by simp)
      exact hhalt
    · obtain ⟨-, -, hhalt⟩ := sentinelHaltsAndChangesNothingElse
      exact hhalt _ ((State.resetAt_atWord_iff base m _).2 hzero)

end Sys2Proof.Machine
end

section
/-! SUPPORT. What each instruction does to the whole state: the value it writes and its frame, or
the move of a branch (40_immediate_arith.md, 41_register_arith_shift.md, 42_branch.md). -/

namespace Sys2Proof.Machine

/-! ## The instructions that write a register -/

theorem exec_normalStep_of_eq_writeStep {i : Instr} {d : Reg} {v : Word} {s : State}
    (h : exec i s = writeStep d v s) :
    ∃ t, exec i s = .next t ∧ NormalStep (some d) s t ∧ t.reg d = v := by
  obtain ⟨t, ht, hv, hframe⟩ := writeStep_next d v s
  exact ⟨t, h.trans ht, hframe, hv⟩

/-- The sign-extended immediate is the integer it denotes, modulo 2^32. -/
theorem sext32_eq_wrap32 (v : BitVec 16) : sext32 v = wrap32 (signedValue v) := by
  rw [← signed16_eq]
  rfl

theorem aluAdd_sext32_toNat (a : Word) (v : BitVec 16) :
    ((aluAdd a (sext32 v)).toNat : Int) = ((a.toNat : Int) + signedValue v) % 2 ^ 32 := by
  rw [sext32_eq_wrap32]
  exact add_wrap32_toNat a (signedValue v)

theorem aluAnd_zext32_getLsbD (a : Word) (v : BitVec 16) (k : Nat) :
    (aluAnd a (zext32 v)).getLsbD k = (decide (k < 16) && (a.getLsbD k && v.getLsbD k)) := by
  rw [aluAnd_getLsbD, zext32_getLsbD, Bool.and_left_comm]

/-- Settles O11: the written sum, read as an integer. -/
theorem addiWritesSumWithSignExtendedImmediate :
    Obligations.AddiWritesSumWithSignExtendedImmediate := by
  intro s rt rs imm
  obtain ⟨t, ht, hframe, hv⟩ := exec_normalStep_of_eq_writeStep (exec_addi rt rs imm s)
  exact ⟨t, ht, hframe, hv ▸ aluAdd_sext32_toNat (s.reg rs) imm⟩

/-- Settles O12: the written conjunction, bit by bit. -/
theorem andiKeepsTheLowHalfUnderTheImmediate :
    Obligations.AndiKeepsTheLowHalfUnderTheImmediate := by
  intro s rt rs imm
  obtain ⟨t, ht, hframe, hv⟩ := exec_normalStep_of_eq_writeStep (exec_andi rt rs imm s)
  exact ⟨t, ht, hframe, hv ▸ aluAnd_zext32_getLsbD (s.reg rs) imm⟩

/-- Settles O13: the written sum, as a number. -/
theorem addWritesSumOfTwoRegisters : Obligations.AddWritesSumOfTwoRegisters := by
  intro s rd rs rt unused
  obtain ⟨t, ht, hframe, hv⟩ := exec_normalStep_of_eq_writeStep (exec_add rd rs rt unused s)
  exact ⟨t, ht, hframe, hv ▸ aluAdd_toNat (s.reg rs) (s.reg rt)⟩

/-- Settles O14: the written right shift, as a number. -/
theorem srlDividesByAPowerOfTwo : Obligations.SrlDividesByAPowerOfTwo := by
  intro s rd rs shamt unused
  obtain ⟨t, ht, hframe, hv⟩ := exec_normalStep_of_eq_writeStep (exec_srl rd rs shamt unused s)
  exact ⟨t, ht, hframe, hv ▸ aluSrl_toNat (s.reg rs) shamt⟩

/-- Settles O15: the written left shift, as a number. -/
theorem sllMultipliesByAPowerOfTwo : Obligations.SllMultipliesByAPowerOfTwo := by
  intro s rd rs shamt unused
  obtain ⟨t, ht, hframe, hv⟩ := exec_normalStep_of_eq_writeStep (exec_sll rd rs shamt unused s)
  exact ⟨t, ht, hframe, hv ▸ aluSll_toNat (s.reg rs) shamt⟩

/-! ## The branches -/

theorem branchStep_true (offset : BitVec 16) (s : State) :
    branchStep true offset s = .next (s.takeBranch (signed16 offset)) := rfl

theorem branchStep_false (offset : BitVec 16) (s : State) :
    branchStep false offset s = .next s.advance := rfl

/-- A branch is one shared step, whose condition is the one of 00_scope.md's glossary. -/
theorem exec_branch {i : Instr} {o : BitVec 16} (h : i.offset = some o) (s : State) :
    exec i s = branchStep (branchHolds i s) o s := by
  cases i with
  | nop | addi | andi | add | srl | sll => cases h
  | beq rs rt offset =>
    obtain rfl := Option.some.inj h
    exact exec_beq rs rt offset s
  | bne rs rt offset =>
    obtain rfl := Option.some.inj h
    exact exec_bne rs rt offset s

/-- A branch completes, whether its condition holds or not. -/
theorem exec_branch_next {i : Instr} {o : BitVec 16} (h : i.offset = some o) (s : State) :
    ∃ t, exec i s = .next t ∧ (branchHolds i s = true → TakenStep (signedValue o) s t) ∧
      (branchHolds i s = false → NormalStep none s t) := by
  rw [exec_branch h]
  cases branchHolds i s with
  | true => exact ⟨_, branchStep_true o s, fun _ => takeBranch_takenStep s o, nofun⟩
  | false => exact ⟨_, branchStep_false o s, nofun, fun _ => advance_normalStep s⟩

theorem branchHolds_beq (rs rt : Reg) (o : BitVec 16) (s : State) :
    branchHolds (.beq rs rt o) s = (s.reg rs == s.reg rt) := rfl

theorem branchHolds_bne (rs rt : Reg) (o : BitVec 16) (s : State) :
    branchHolds (.bne rs rt o) s = (s.reg rs != s.reg rt) := rfl

/-- Settles O16: the two outcomes of a branch, under the condition of `beq`. -/
theorem beqMovesCursorWhenEqual : Obligations.BeqMovesCursorWhenEqual := by
  intro s rs rt offset
  simpa [branchHolds_beq] using exec_branch_next (i := .beq rs rt offset) rfl s

/-- Settles O17: the two outcomes of a branch, under the condition of `bne`. -/
theorem bneMovesCursorWhenDifferent : Obligations.BneMovesCursorWhenDifferent := by
  intro s rs rt offset
  simpa [branchHolds_bne] using exec_branch_next (i := .bne rs rt offset) rfl s

/-! ## Every instruction, as one of the three rows of R19 -/

/-- From `s` to `t` the instruction halts, makes a normal step with its own destination, or is a
taken branch. -/
def ExecRow (i : Instr) (s t : State) : Prop :=
  (i = .nop ∧ HaltStep s t) ∨
  (i ≠ .nop ∧ branchHolds i s = false ∧ NormalStep i.dest s t) ∨
  (branchHolds i s = true ∧ ∃ o, i.offset = some o ∧ TakenStep (signedValue o) s t)

theorem exec_row_of_eq_writeStep {i : Instr} {d : Reg} {v : Word} {s : State}
    (h : exec i s = writeStep d v s) (hn : i ≠ .nop) (hb : branchHolds i s = false)
    (hd : i.dest = some d) : ∃ t, exec i s = .next t ∧ ExecRow i s t := by
  obtain ⟨t, ht, hframe, -⟩ := exec_normalStep_of_eq_writeStep h
  exact ⟨t, ht, .inr (.inl ⟨hn, hb, hd ▸ hframe⟩)⟩

theorem exec_row_of_offset {i : Instr} {o : BitVec 16} (h : i.offset = some o) (s : State)
    (hn : i ≠ .nop) (hd : i.dest = none) : ∃ t, exec i s = .next t ∧ ExecRow i s t := by
  obtain ⟨t, ht, htaken, hfalls⟩ := exec_branch_next h s
  cases hb : branchHolds i s with
  | true => exact ⟨t, ht, .inr (.inr ⟨hb, o, h, htaken hb⟩)⟩
  | false => exact ⟨t, ht, .inr (.inl ⟨hn, hb, hd ▸ hfalls hb⟩)⟩

theorem exec_row (i : Instr) (s : State) : ∃ t, exec i s = .next t ∧ ExecRow i s t := by
  cases i with
  | nop => exact ⟨s.halt, exec_nop s, .inl ⟨rfl, halt_haltStep s⟩⟩
  | addi | andi | add | srl | sll => exact exec_row_of_eq_writeStep rfl nofun rfl rfl
  | beq | bne => exact exec_row_of_offset rfl s nofun rfl

theorem execRow_of_next {i : Instr} {s t : State} (h : exec i s = .next t) : ExecRow i s t := by
  obtain ⟨u, hu, hrow⟩ := exec_row i s
  exact Host.Outcome.next.inj (hu.symm.trans h) ▸ hrow

/-- Settles O10: an unmatched word advances, and each row of R19 keeps the stream and keeps the
status or halts. -/
theorem everyWordRunsToANextState : Obligations.EveryWordRunsToANextState := by
  intro w s
  cases hd : decode w with
  | error e => exact ⟨s.advance, by rw [stepWord, hd, execUnmatched], rfl, .inl rfl⟩
  | ok i =>
    rw [stepWord_of_decode hd]
    obtain ⟨t, ht, ⟨-, -, -, -, hst, him⟩ | ⟨-, -, -, -, -, hst, him⟩ |
      ⟨-, o, -, -, -, -, hst, him⟩⟩ := exec_row i s
    · exact ⟨t, ht, him, .inr hst⟩
    · exact ⟨t, ht, him, .inl hst⟩
    · exact ⟨t, ht, him, .inl hst⟩

end Sys2Proof.Machine
end

section
/-! SUPPORT. The step of a block: it is the instruction at the cursor and nothing beside it, it
stops nowhere but below 0, and it moves cursor and PC by a row of R19 (43_step_sentinel_unmatched.md R100,
10_state.md R19). -/

namespace Sys2Proof.Machine

/-! ## What the state is at -/

theorem State.AtWord.lt_length {s : State} {w : Word} (h : s.AtWord w) :
    0 ≤ s.idx ∧ s.idx < s.imem.length := by
  obtain ⟨-, h0, hw⟩ := h
  have := (List.getElem?_eq_some_iff.1 hw).1
  omega

theorem State.AtWord.unique {s : State} {w v : Word} (hw : s.AtWord w) (hv : s.AtWord v) :
    w = v := by
  obtain ⟨-, -, hw⟩ := hw
  obtain ⟨-, -, hv⟩ := hv
  exact Option.some.inj (hw.symm.trans hv)

theorem State.AtInstr.running {s : State} {i : Instr} (h : s.AtInstr i) : s.status = .running := by
  obtain ⟨w, ⟨hrun, -⟩, -⟩ := h
  exact hrun

/-- Settles O4: a step at a word is the step on that word, which is `exec` of what it decodes to. -/
theorem stepRunsTheDecodedInstruction : Obligations.StepRunsTheDecodedInstruction := by
  rintro s i ⟨w, hw, hd⟩
  exact (step_of_atWord hw).trans (stepWord_of_decode hd s)

/-! ## Where the step stops -/

/-- Settles O8, by induction on the number of steps: each answers the same state. -/
theorem haltedBlockNeverChanges : Obligations.HaltedBlockNeverChanges := by
  intro s hs k
  induction k with
  | zero => exact run_zero s
  | succ k ih => exact (run_succ_of_next (step_of_halted hs) k).trans ih

theorem step_of_beforeStart {s : State} (hs : s.status = .running) (h : s.idx < 0) :
    step s = .fault .cursorBeforeStart := by
  simp [step, runningStep, hs, (s.fetch_beforeStart_iff).2 h]

theorem exists_step_next {s : State} (h : s.status = .halted ∨ 0 ≤ s.idx) :
    ∃ t, step s = .next t := by
  cases hs : s.status with
  | halted => exact ⟨s, step_of_halted hs⟩
  | running =>
    rcases State.running_cases hs with hend | hneg | ⟨w, hw⟩
    · exact ⟨s.halt, step_of_endOfStream hs hend⟩
    · simp only [hs, reduceCtorEq, false_or] at h
      omega
    · obtain ⟨t, ht, -⟩ := everyWordRunsToANextState w s
      exact ⟨t, (step_of_atWord hw).trans ht⟩

/-- A step answers a next state or is the fault of R93. -/
theorem step_next_or_fault (s : State) :
    (∃ t, step s = .next t) ∨
      (s.status = .running ∧ s.idx < 0 ∧ step s = .fault .cursorBeforeStart) := by
  by_cases h : s.status = .halted ∨ 0 ≤ s.idx
  · exact .inl (exists_step_next h)
  · have hs : s.status = .running := by
      cases hs : s.status with
      | halted => exact absurd (.inl hs) h
      | running => rfl
    have hneg : s.idx < 0 := by omega
    exact .inr ⟨hs, hneg, step_of_beforeStart hs hneg⟩

theorem running_of_step_fault {s : State} {f : Fault} (h : step s = .fault f) :
    s.status = .running ∧ s.idx < 0 := by
  rcases step_next_or_fault s with ⟨t, ht⟩ | ⟨hs, hneg, -⟩
  · rw [ht] at h
    cases h
  · exact ⟨hs, hneg⟩

/-- Settles O9: the step answers a next state or faults below 0, and never both. -/
theorem stepFaultsExactlyOnACursorBeforeStart :
    Obligations.StepFaultsExactlyOnACursorBeforeStart :=
  fun _ => ⟨⟨running_of_step_fault, fun ⟨hs, h⟩ => step_of_beforeStart hs h⟩, exists_step_next⟩

/-! ## Whether the step is a taken branch -/

theorem branchTaken_of_atInstr {s : State} {i : Instr} (h : s.AtInstr i) :
    s.branchTaken = branchHolds i s := by
  obtain ⟨w, hw, hd⟩ := h
  obtain ⟨hrun, -⟩ := id hw
  simp [State.branchTaken, hrun, hw.fetch, hd]

theorem branchTaken_of_halted {s : State} (h : s.status = .halted) : s.branchTaken = false := by
  simp [State.branchTaken, h]

theorem branchTaken_of_endOfStream {s : State} (h : (s.imem.length : Int) ≤ s.idx) :
    s.branchTaken = false := by
  unfold State.branchTaken
  rw [(s.fetch_endOfStream_iff).2 h]
  cases s.status <;> rfl

theorem branchTaken_of_unmatched {s : State} {w : Word} {e : Reject} (hw : s.AtWord w)
    (hd : decode w = .error e) : s.branchTaken = false := by
  obtain ⟨hrun, -⟩ := id hw
  simp [State.branchTaken, hrun, hw.fetch, hd]

/-! ## The rows of R19 -/

/-- A step that answers a next state leaves cursor and PC and the block is halted, makes a normal
step, or is a taken branch. -/
theorem step_rows {s t : State} (h : step s = .next t) :
    (s.branchTaken = false ∧ HaltStep s t) ∨
    (s.branchTaken = false ∧ s.status = .running ∧ ∃ d, NormalStep d s t) ∨
    (s.branchTaken = true ∧ ∃ i o, s.AtInstr i ∧ i.offset = some o ∧
      TakenStep (signedValue o) s t) := by
  rcases step_next_cases h with ⟨hs, rfl⟩ | ⟨-, hend, rfl⟩ | ⟨w, i, hw, hd, he⟩ |
    ⟨w, e, hw, hd, rfl⟩
  · exact .inl ⟨branchTaken_of_halted hs, fun _ => rfl, rfl, rfl, hs, rfl⟩
  · exact .inl ⟨branchTaken_of_endOfStream hend, halt_haltStep s⟩
  · have hi : s.AtInstr i := ⟨w, hw, hd⟩
    rw [branchTaken_of_atInstr hi]
    rcases execRow_of_next he with ⟨rfl, hhalt⟩ | ⟨-, hb, hnormal⟩ | ⟨hb, o, ho, htaken⟩
    · exact .inl ⟨rfl, hhalt⟩
    · exact .inr (.inl ⟨hb, hi.running, i.dest, hnormal⟩)
    · exact .inr (.inr ⟨hb, i, o, hi, ho, htaken⟩)
  · obtain ⟨hrun, -⟩ := id hw
    exact .inr (.inl ⟨branchTaken_of_unmatched hw hd, hrun, none, advance_normalStep s⟩)

/-- Settles O21: the rows of the step, with what each says of cursor, PC and status. -/
theorem cursorAndPcMoveByTheTable : Obligations.CursorAndPcMoveByTheTable := by
  intro s t h
  rcases step_rows h with ⟨-, -, hidx, hpc, hst, -⟩ | ⟨hb, hrun, d, -, hidx, hpc, hst, -⟩ |
    ⟨hb, i, o, hi, ho, htaken⟩
  · exact .inl ⟨hidx, hpc, hst⟩
  · exact .inr (.inl ⟨hb, hidx, hpc, hst.trans hrun⟩)
  · obtain ⟨-, -, -, hst, -⟩ := id htaken
    exact .inr (.inr ⟨hb, i, o, hi, ho, htaken, hst.trans hi.running⟩)

/-! ## The two ends of a run -/

theorem decode_eq_nop_iff_eq_zero (w : Word) : decode w = .ok .nop ↔ w = 0x00000000#32 := by
  rw [decode_eq_nop_iff, show w &&& 0xFFFFFFFF#32 = w from BitVec.and_allOnes]

/-- An instruction halts a running block exactly when it is the sentinel. -/
theorem exec_halts_iff {i : Instr} {s t : State} (hs : s.status = .running)
    (h : exec i s = .next t) : (t.status = .halted ↔ i = .nop) ∧ (i = .nop → HaltStep s t) := by
  rcases execRow_of_next h with ⟨rfl, hhalt⟩ | ⟨hn, -, -, -, -, hst, -⟩ |
    ⟨hb, o, ho, -, -, -, hst, -⟩
  · obtain ⟨-, -, -, hst, -⟩ := id hhalt
    exact ⟨by simp [hst], fun _ => hhalt⟩
  · simp [hst, hs, hn]
  · have hn : i ≠ .nop := by
      rintro rfl
      cases ho
    simp [hst, hs, hn]

/-- Settles O27: past the end the step halts; at a word it halts exactly when the word decodes to
`nop`, which the all-zero word alone does. -/
theorem runEndsOnlyAtSentinelOrEndOfStream : Obligations.RunEndsOnlyAtSentinelOrEndOfStream := by
  intro s t hs h
  have hat {w : Word} (hw : s.AtWord w) :
      (s.AtWord 0x00000000#32 ∨ (s.imem.length : Int) ≤ s.idx) ↔ decode w = .ok .nop := by
    have hend : ¬ (s.imem.length : Int) ≤ s.idx := by
      have := hw.lt_length
      omega
    rw [decode_eq_nop_iff_eq_zero, or_iff_left hend]
    exact ⟨fun hz => hw.unique hz, fun hz => hz ▸ hw⟩
  rcases step_next_cases h with ⟨hh, -⟩ | ⟨-, hend, rfl⟩ | ⟨w, i, hw, hd, he⟩ |
    ⟨w, e, hw, hd, rfl⟩
  · rw [hs] at hh
    cases hh
  · exact ⟨⟨fun _ => .inr hend, fun _ => rfl⟩, fun _ => halt_haltStep s⟩
  · obtain ⟨hiff, hhalt⟩ := exec_halts_iff hs he
    rw [hat hw, hiff, hd, Except.ok.injEq]
    exact ⟨Iff.rfl, hhalt⟩
  · rw [hat hw, hd, State.advance_status, hs]
    exact ⟨⟨nofun, nofun⟩, nofun⟩

end Sys2Proof.Machine
end

section
/-! SUPPORT. The PC: how it follows the cursor, its alignment, and that nothing reads it
(10_state.md, section 3). -/

namespace Sys2Proof.Machine

/-! ## The PC follows the cursor, less 4 for each taken branch (R20) -/

theorem takenBranches_succ_of_next {s u : State} (h : step s = .next u) (k : Nat) :
    takenBranches (k + 1) s = (if s.branchTaken then 1 else 0) + takenBranches k u := by
  rw [takenBranches, h]

/-- One step of R20's relation, row by row. -/
theorem step_pc {s t : State} (h : step s = .next t) :
    (t.pc.toNat : Int) = (s.pc.toNat + 4 * (t.idx - s.idx) -
      4 * ((if s.branchTaken then 1 else 0 : Nat) : Int)) % 2 ^ 32 := by
  rcases step_rows h with ⟨hb, -, hidx, hpc, -⟩ | ⟨hb, -, d, -, hidx, hpc, -⟩ |
    ⟨hb, i, o, -, -, -, hidx, hpc, -⟩
  · have := s.pc.isLt
    rw [hpc, hidx, hb, if_neg Bool.false_ne_true]
    omega
  · rw [hpc, hidx, hb, if_neg Bool.false_ne_true]
    omega
  · rw [hpc, hidx, hb, if_pos rfl]
    omega

theorem eq_of_run_zero {s t : State} (h : Sys2Proof.core.run 0 s = .next t) : s = t :=
  Host.Outcome.next.inj h

theorem run_pc (k : Nat) (s t : State) (h : Sys2Proof.core.run k s = .next t) :
    (t.pc.toNat : Int) =
      (s.pc.toNat + 4 * (t.idx - s.idx) - 4 * (takenBranches k s : Int)) % 2 ^ 32 := by
  induction k generalizing s with
  | zero =>
    obtain rfl := eq_of_run_zero h
    have := s.pc.isLt
    rw [takenBranches]
    omega
  | succ k ih =>
    obtain ⟨u, hu, hrest⟩ := run_succ_next h
    have hfirst := step_pc hu
    have htail := ih u hrest
    rw [takenBranches_succ_of_next hu]
    omega

/-- Settles O22, by induction on the number of steps; the reset state has the base as PC and 0 as
cursor. -/
theorem pcFollowsCursorLessTakenBranches : Obligations.PcFollowsCursorLessTakenBranches := by
  refine ⟨run_pc, fun base m k t h => ?_⟩
  simpa using run_pc k _ t h

/-! ## Alignment (R21) -/

/-- Settles O23: each step moves the PC by a multiple of 4 modulo 2^32, and 4 divides 2^32. -/
theorem stepKeepsPcAligned : Obligations.StepKeepsPcAligned := by
  intro base s t hs h
  have hpc := step_pc h
  unfold State.PcAligned at *
  omega

/-- Settles O24: the PC of the reset state is the base. -/
theorem resetIsPcAligned : Obligations.ResetIsPcAligned := by
  intro base m
  rw [State.PcAligned, State.resetAt_pc]

/-! ## Nothing reads the PC (R17) -/

/-- The state with another PC. -/
def State.withPc (s : State) (p : Word) : State := { s with pc := p }

theorem sameButPc_iff_withPc (s t : State) : SameButPc s t ↔ ∃ p, t = s.withPc p := by
  constructor
  · rintro ⟨hregs, hidx, hst, him⟩
    refine ⟨t.pc, ?_⟩
    cases t
    simp_all [State.withPc]
  · rintro ⟨p, rfl⟩
    exact ⟨rfl, rfl, rfl, rfl⟩

theorem branchStep_withPc {taken : Bool} {o : BitVec 16} {s t : State}
    (h : branchStep taken o s = .next t) (p : Word) :
    ∃ q, branchStep taken o (s.withPc p) = .next (t.withPc q) := by
  cases taken with
  | true | false =>
    obtain rfl := Host.Outcome.next.inj h
    exact ⟨_, rfl⟩

/-- Replacing the PC before an instruction changes at most the PC after it: each shared step gets
the same arguments, since none of them is the PC. -/
theorem exec_withPc {i : Instr} {s t : State} (h : exec i s = .next t) (p : Word) :
    ∃ q, exec i (s.withPc p) = .next (t.withPc q) := by
  cases i with
  | nop | addi | andi | add | srl | sll =>
    obtain rfl := Host.Outcome.next.inj h
    exact ⟨_, rfl⟩
  | beq | bne => exact branchStep_withPc h p

theorem step_withPc {s t : State} (h : step s = .next t) (p : Word) :
    ∃ q, step (s.withPc p) = .next (t.withPc q) := by
  rcases step_next_cases h with ⟨hs, rfl⟩ | ⟨hs, hend, rfl⟩ | ⟨w, i, hw, hd, he⟩ |
    ⟨w, e, hw, hd, rfl⟩
  · exact ⟨p, step_of_halted (s := t.withPc p) hs⟩
  · exact ⟨p, step_of_endOfStream (s := s.withPc p) hs hend⟩
  · rw [stepRunsTheDecodedInstruction (s.withPc p) i ⟨w, hw, hd⟩]
    exact exec_withPc he p
  · refine ⟨p + 4#32, ?_⟩
    rw [step_of_atWord (s := s.withPc p) hw, stepWord, hd]
    rfl

theorem step_sameButPc {s t u : State} (hst : SameButPc s t) (h : step s = .next u) :
    ∃ v, step t = .next v ∧ SameButPc u v := by
  obtain ⟨p, rfl⟩ := (sameButPc_iff_withPc s t).1 hst
  obtain ⟨q, hq⟩ := step_withPc h p
  exact ⟨u.withPc q, hq, (sameButPc_iff_withPc u _).2 ⟨q, rfl⟩⟩

/-- The fault of R93 depends on status and cursor only. -/
theorem step_fault_sameButPc {s t : State} (hst : SameButPc s t) {f : Fault}
    (h : step s = .fault f) : step t = .fault f := by
  obtain ⟨-, hidx, hstatus, -⟩ := hst
  cases f with
  | cursorBeforeStart =>
    obtain ⟨hrun, hneg⟩ := running_of_step_fault h
    exact step_of_beforeStart (hstatus ▸ hrun) (hidx ▸ hneg)

theorem run_sameButPc (k : Nat) {s t : State} (hst : SameButPc s t) :
    (∀ s', Sys2Proof.core.run k s = .next s' →
      ∃ t', Sys2Proof.core.run k t = .next t' ∧ SameButPc s' t') ∧
    (∀ f, Sys2Proof.core.run k s = .fault f → Sys2Proof.core.run k t = .fault f) := by
  induction k generalizing s t with
  | zero =>
    refine ⟨fun s' h => ⟨t, run_zero t, eq_of_run_zero h ▸ hst⟩, fun f h => ?_⟩
    rw [run_zero] at h
    cases h
  | succ k ih =>
    rcases step_next_or_fault s with ⟨u, hu⟩ | ⟨-, -, hf⟩
    · obtain ⟨v, hv, huv⟩ := step_sameButPc hst hu
      rw [run_succ_of_next hu, run_succ_of_next hv]
      exact ih huv
    · rw [run_succ_of_fault hf, run_succ_of_fault (step_fault_sameButPc hst hf)]
      exact ⟨nofun, fun _ h => h⟩

/-- Settles O25, by induction on the number of steps, going on or stopping alike at the first. -/
theorem pcIsReadByNothing : Obligations.PcIsReadByNothing :=
  fun _ _ hst k => run_sameButPc k hst

end Sys2Proof.Machine
end

section
/-! SUPPORT. Control transfer: where a taken branch leads, and the streams whose branches go forward
or stay inside (42_branch.md, "Control transfer in general"). -/

namespace Sys2Proof.Machine

/-! ## The step of a taken branch -/

theorem step_of_branchTaken {s : State} {i : Instr} {o : BitVec 16} (hi : s.AtInstr i)
    (ho : i.offset = some o) (hb : s.branchTaken = true) :
    step s = .next (s.takeBranch (signed16 o)) := by
  rw [stepRunsTheDecodedInstruction s i hi, exec_branch ho, ← branchTaken_of_atInstr hi, hb,
    branchStep_true]

theorem takeBranch_target (s : State) (o : BitVec 16) :
    (s.takeBranch (signed16 o)).idx = s.idx + signedValue o + 1 := by
  rw [State.takeBranch_idx, signed16_eq]

theorem run_one (s : State) : Sys2Proof.core.run 1 s = step s := by
  cases h : step s with
  | next t => exact (run_succ_of_next h 0).trans (run_zero t)
  | fault f => exact run_succ_of_fault h 0
  | refused r => exact run_succ_of_refused h 0

theorem run_two_of_branchTaken {s : State} {i : Instr} {o : BitVec 16} (hi : s.AtInstr i)
    (ho : i.offset = some o) (hb : s.branchTaken = true) :
    Sys2Proof.core.run 2 s = step (s.takeBranch (signed16 o)) := by
  rw [run_succ_of_next (step_of_branchTaken hi ho hb), run_one]

/-- Settles O28: the second step is at the word of the target. -/
theorem takenBranchIsFollowedByItsTarget : Obligations.TakenBranchIsFollowedByItsTarget := by
  intro s i j o w hi ho hb h0 hw hd
  have hj : (s.takeBranch (signed16 o)).AtInstr j :=
    ⟨w, ⟨hi.running, by rwa [takeBranch_target], by rwa [takeBranch_target]⟩, hd⟩
  exact ⟨_, step_of_branchTaken hi ho hb, takeBranch_target s o,
    (run_two_of_branchTaken hi ho hb).trans (stepRunsTheDecodedInstruction _ j hj)⟩

/-- Settles O29: the branch completes, and the second step is at the end of the stream or below 0. -/
theorem targetOutsideTheStreamEndsTheRun : Obligations.TargetOutsideTheStreamEndsTheRun := by
  intro s i o hi ho hb
  have hrun : (s.takeBranch (signed16 o)).status = .running := hi.running
  refine ⟨fun hend => ⟨(s.takeBranch (signed16 o)).halt, ?_, State.halt_status _, ?_⟩,
    fun hneg => ⟨⟨_, step_of_branchTaken hi ho hb, takeBranch_target s o⟩, ?_⟩⟩
  · rw [run_two_of_branchTaken hi ho hb]
    refine step_of_endOfStream hrun ?_
    rwa [takeBranch_target]
  · rw [State.halt_idx, takeBranch_target]
  · rw [run_two_of_branchTaken hi ho hb]
    refine step_of_beforeStart hrun ?_
    rwa [takeBranch_target]

/-! ## A branch onto itself -/

/-- The step of `beq` of a register with itself and offset -1: only the PC changes, by -4. -/
theorem step_branchOntoItself {s : State} {r : Reg} {o : BitVec 16} (ho : signedValue o = -1)
    (hi : s.AtInstr (.beq r r o)) :
    ∃ t, step s = .next t ∧ SameButPc t s ∧ (t.pc.toNat : Int) = (s.pc.toNat - 4) % 2 ^ 32 := by
  have hb : s.branchTaken = true := by
    rw [branchTaken_of_atInstr hi, branchHolds_beq, beq_self_eq_true]
  have hs16 : signed16 o = -1 := (signed16_eq o).trans ho
  refine ⟨_, step_of_branchTaken hi rfl hb, ⟨State.takeBranch_regs s _, ?_,
    State.takeBranch_status s _, State.takeBranch_imem s _⟩, ?_⟩
  · rw [State.takeBranch_idx, hs16]
    omega
  · rw [State.takeBranch_pc, add_wrap32_toNat, hs16]
    omega

theorem SameButPc.atInstr {s t : State} {i : Instr} (h : SameButPc t s) (hi : s.AtInstr i) :
    t.AtInstr i := by
  obtain ⟨-, hidx, hst, him⟩ := h
  obtain ⟨w, ⟨hrun, h0, hw⟩, hd⟩ := hi
  exact ⟨w, ⟨hst ▸ hrun, hidx ▸ h0, by rwa [hidx, him]⟩, hd⟩

/-- Settles O30, by induction on the number of steps: the first step answers a state at the same
branch. -/
theorem branchOntoItselfNeverEnds : Obligations.BranchOntoItselfNeverEnds := by
  intro s r o ho hi k
  induction k generalizing s with
  | zero =>
    have := s.pc.isLt
    exact ⟨s, run_zero s, hi.running, rfl, fun _ => rfl, by omega⟩
  | succ k ih =>
    obtain ⟨u, hu, hsame, hpc⟩ := step_branchOntoItself ho hi
    obtain ⟨t, ht, hrun, hidx, hreg, hpc'⟩ := ih u (hsame.atInstr hi)
    obtain ⟨hregs, huidx, -⟩ := hsame
    exact ⟨t, (run_succ_of_next hu k).trans ht, hrun, hidx.trans huidx,
      fun q => (hreg q).trans (State.reg_congr hregs q), by omega⟩

/-! ## Streams whose branches go forward -/

/-- With forward branches only, a step halts or moves the cursor on. -/
theorem step_halts_or_goes_forward {s t : State} (hfwd : BranchesGoForward s.imem)
    (h : step s = .next t) : t.status = .halted ∨ s.idx + 1 ≤ t.idx := by
  rcases step_rows h with ⟨-, -, -, -, hst, -⟩ | ⟨-, -, d, -, hidx, -⟩ |
    ⟨-, i, o, ⟨w, ⟨-, -, hw⟩, hd⟩, ho, -, hidx, -⟩
  · exact .inl hst
  · exact .inr (by omega)
  · have := hfwd w i o (List.mem_of_getElem? hw) hd ho
    rw [signed16_eq] at this
    exact .inr (by omega)

theorem halted_of_step_endOfStream {s t : State} (h : step s = .next t)
    (hend : (s.imem.length : Int) ≤ s.idx) : t.status = .halted := by
  cases hs : s.status with
  | halted =>
    obtain rfl := Host.Outcome.next.inj ((step_of_halted hs).symm.trans h)
    exact hs
  | running =>
    obtain rfl := Host.Outcome.next.inj ((step_of_endOfStream hs hend).symm.trans h)
    exact State.halt_status s

/-- Settles O31, by strong induction on the number of words ahead: a step halts or lowers it. -/
theorem forwardStreamsTerminate : Obligations.ForwardStreamsTerminate := by
  intro s h0 hfwd
  induction hn : ((s.imem.length : Int) - s.idx).toNat using Nat.strong_induction_on
    generalizing s with
  | _ n ih =>
    obtain ⟨u, hu⟩ := exists_step_next (.inr h0)
    by_cases hhalt : u.status = .halted
    · exact ⟨1, u, by omega, (run_one s).trans hu, hhalt⟩
    · have hmove := (step_halts_or_goes_forward hfwd hu).resolve_left hhalt
      have hlt : s.idx < s.imem.length :=
        lt_of_not_ge fun hend => hhalt (halted_of_step_endOfStream hu hend)
      have him := step_imem hu
      obtain ⟨k, t, hk, ht, hend⟩ := ih ((u.imem.length : Int) - u.idx).toNat
        (by rw [him]; omega) u (by omega) (him ▸ hfwd) rfl
      rw [him] at hk
      exact ⟨k + 1, t, by omega, (run_succ_of_next hu k).trans ht, hend⟩

/-! ## Streams whose branches stay inside -/

/-- Settles O32: a step moves the cursor on by at most one word, or to the target of a branch of the
stream. -/
theorem branchesInsideKeepTheCursorFromTheStart :
    Obligations.BranchesInsideKeepTheCursorFromTheStart := by
  rintro s t ⟨hin, h0⟩ h
  refine ⟨step_imem h ▸ hin, ?_⟩
  rcases step_rows h with ⟨-, -, hidx, -⟩ | ⟨-, -, d, -, hidx, -⟩ |
    ⟨-, i, o, ⟨w, ⟨-, -, hw⟩, hd⟩, ho, -, hidx, -⟩
  · omega
  · omega
  · obtain ⟨hlow, -⟩ := hin s.idx.toNat w i o hw hd ho
    rw [signed16_eq] at hlow
    omega

theorem neverStops_of_branchesStayInside {s : State} (hin : BranchesStayInside s.imem)
    (h0 : 0 ≤ s.idx) : NeverStops s := by
  intro k
  induction k generalizing s with
  | zero => exact ⟨s, run_zero s⟩
  | succ k ih =>
    obtain ⟨u, hu⟩ := exists_step_next (.inr h0)
    obtain ⟨huin, hu0⟩ := branchesInsideKeepTheCursorFromTheStart s u ⟨hin, h0⟩ hu
    rw [run_succ_of_next hu]
    exact ih huin hu0

end Sys2Proof.Machine
end

section
/-! SUPPORT. The decoder and the encoder against each other: the fields of an encoded word, the
numbers of a decoded one, and the rows of the table (30_encoding.md, sections 1, 2 and 4). -/

namespace Sys2Proof

/-! ## The fields of a word in one of the formats -/

theorem formatI_fields (op : BitVec 6) (rs rt : Reg) (imm : BitVec 16) :
    fieldRs (formatI op (bits5 rs) (bits5 rt) imm) = rs ∧
    fieldRt (formatI op (bits5 rs) (bits5 rt) imm) = rt ∧
    fieldImm16 (formatI op (bits5 rs) (bits5 rt) imm) = imm := by
  have h := formatI_toNat op (bits5 rs) (bits5 rt) imm
  have := rs.isLt; have := rt.isLt; have := imm.isLt
  simp only [bits5_toNat] at h
  refine ⟨Fin.ext ?_, Fin.ext ?_, BitVec.eq_of_toNat_eq ?_⟩
  · rw [fieldRs_val, h]
    omega
  · rw [fieldRt_val, h]
    omega
  · rw [fieldImm16_toNat, h]
    omega

theorem formatR_registers (rs rd : Reg) (b d : BitVec 5) (funct : BitVec 6) :
    fieldRs (formatR (bits5 rs) b (bits5 rd) d funct) = rs ∧
    fieldRd (formatR (bits5 rs) b (bits5 rd) d funct) = rd := by
  have h := formatR_toNat (bits5 rs) b (bits5 rd) d funct
  have := rs.isLt; have := b.isLt; have := rd.isLt; have := d.isLt; have := funct.isLt
  simp only [bits5_toNat] at h
  refine ⟨Fin.ext ?_, Fin.ext ?_⟩
  · rw [fieldRs_val, h]
    omega
  · rw [fieldRd_val, h]
    omega

theorem ignored_formatR (a b c d : BitVec 5) (funct : BitVec 6) :
    ignoredRt (formatR a b c d funct) = b ∧ ignoredShamt (formatR a b c d funct) = d := by
  have h := formatR_toNat a b c d funct
  have := b.isLt; have := c.isLt; have := d.isLt; have := funct.isLt
  refine ⟨BitVec.eq_of_toNat_eq ?_, BitVec.eq_of_toNat_eq ?_⟩
  · rw [ignoredRt_toNat, h]
    omega
  · rw [ignoredShamt_toNat, h]
    omega

theorem fieldRt_formatR (a c d : BitVec 5) (rt : Reg) (funct : BitVec 6) :
    fieldRt (formatR a (bits5 rt) c d funct) = rt :=
  congrArg BitVec.toFin (ignored_formatR a (bits5 rt) c d funct).1

theorem fieldShamt_formatR (a b c : BitVec 5) (n : Shamt) (funct : BitVec 6) :
    fieldShamt (formatR a b c (bits5 n) funct) = n :=
  congrArg BitVec.toFin (ignored_formatR a b c (bits5 n) funct).2

/-! ## Decoding an encoded word -/

/-- The operands of an instruction stand in its word where its row reads them. -/
theorem build_encode (i : Instr) : build (Laws.rowKind i) (encode i) = i := by
  cases i with
  | nop => rfl
  | addi rt rs imm =>
    obtain ⟨h1, h2, h3⟩ := formatI_fields 0b001000#6 rs rt imm
    simp only [Laws.rowKind, build, encode, h1, h2, h3]
  | andi rt rs imm =>
    obtain ⟨h1, h2, h3⟩ := formatI_fields 0b001100#6 rs rt imm
    simp only [Laws.rowKind, build, encode, h1, h2, h3]
  | beq rs rt o =>
    obtain ⟨h1, h2, h3⟩ := formatI_fields 0b000100#6 rs rt o
    simp only [Laws.rowKind, build, encode, h1, h2, h3]
  | bne rs rt o =>
    obtain ⟨h1, h2, h3⟩ := formatI_fields 0b000101#6 rs rt o
    simp only [Laws.rowKind, build, encode, h1, h2, h3]
  | add rd rs rt u =>
    simp only [Laws.rowKind, build, encode, formatR_registers, fieldRt_formatR, ignored_formatR]
  | srl rd rs n u =>
    simp only [Laws.rowKind, build, encode, formatR_registers, fieldShamt_formatR, ignored_formatR]
  | sll rd rs n u =>
    simp only [Laws.rowKind, build, encode, formatR_registers, fieldShamt_formatR, ignored_formatR]

theorem decode_encode {i : Instr} (h : i.wf = true) : decode (encode i) = .ok i := by
  rw [decode_of_kind (encodesInRow i h), build_encode]

/-- The word of the one ill-formed term is the sentinel (R58). -/
theorem decode_encode_of_not_wf {i : Instr} (h : i.wf = false) : decode (encode i) = .ok .nop := by
  obtain rfl := eq_sll_zero_of_not_wf h
  decide

/-- Settles O36: the round trip, and the word of the one ill-formed term. -/
theorem decodeOfEncodeIsTheInstruction : Obligations.DecodeOfEncodeIsTheInstruction :=
  ⟨fun _ => decode_encode, fun _ h => ⟨eq_sll_zero_of_not_wf h, decode_encode_of_not_wf h⟩⟩

/-! ## Encoding a decoded word -/

/-- The numbers that a word of each kind has (R52); the all-zero word is the sentinel's (R54). -/
def HasNumbers (n : Nat) : Kind → Prop
  | .nop => n = 0
  | .addi => n / 2 ^ 26 = 0x08
  | .andi => n / 2 ^ 26 = 0x0C
  | .add => n / 2 ^ 26 = 0x00 ∧ n % 2 ^ 6 = 0x20
  | .srl => n / 2 ^ 26 = 0x00 ∧ n % 2 ^ 6 = 0x02
  | .sll => n ≠ 0 ∧ n / 2 ^ 26 = 0x00 ∧ n % 2 ^ 6 = 0x00
  | .beq => n / 2 ^ 26 = 0x04
  | .bne => n / 2 ^ 26 = 0x05

theorem kindByNumber_eq_some_iff (n : Nat) (k : Kind) :
    kindByNumber n = some k ↔ HasNumbers n k := by
  constructor
  · intro h
    unfold kindByNumber at h
    split_ifs at h with h0 h1 h2 h3 h4 h5 h6 h7 <;> obtain rfl := Option.some.inj h
    · exact h0
    · exact h1
    · exact h2
    · exact h3
    · exact h4
    · exact ⟨h0, h5⟩
    · exact h6
    · exact h7
  · intro h
    cases k with
    | nop => exact (kindByNumber_eq_nop_iff n).2 h
    | addi => exact kindByNumber_addi h
    | andi => exact kindByNumber_andi h
    | add =>
      obtain ⟨hop, hf⟩ := h
      exact kindByNumber_add hop hf
    | srl =>
      obtain ⟨hop, hf⟩ := h
      exact kindByNumber_srl hop hf
    | sll =>
      obtain ⟨hn, hop, hf⟩ := h
      exact kindByNumber_sll hn hop hf
    | beq => exact kindByNumber_beq h
    | bne => exact kindByNumber_bne h

@[simp] theorem bits5_toFin (b : BitVec 5) : bits5 b.toFin = b := rfl

/-- Format I of a word's own fields is the word, if the `op` is right. -/
theorem formatI_eq_self {w : Word} {op : BitVec 6} (h : w.toNat / 2 ^ 26 = op.toNat) :
    formatI op (bits5 (fieldRs w)) (bits5 (fieldRt w)) (fieldImm16 w) = w := by
  apply BitVec.eq_of_toNat_eq
  rw [formatI_toNat, bits5_toNat, bits5_toNat, fieldRs_val, fieldRt_val, fieldImm16_toNat]
  omega

/-- Format R of a word's own fields is the word, if `op` is 0 and the `funct` is right. -/
theorem formatR_eq_self {w : Word} {funct : BitVec 6} (h : w.toNat / 2 ^ 26 = 0)
    (hf : w.toNat % 2 ^ 6 = funct.toNat) :
    formatR (bits5 (fieldRs w)) (ignoredRt w) (bits5 (fieldRd w)) (ignoredShamt w) funct = w := by
  apply BitVec.eq_of_toNat_eq
  rw [formatR_toNat, bits5_toNat, bits5_toNat, fieldRs_val, ignoredRt_toNat, fieldRd_val,
    ignoredShamt_toNat]
  omega

theorem encode_build {w : Word} {k : Kind} (h : HasNumbers w.toNat k) : encode (build k w) = w := by
  cases k with
  | nop =>
    have hz : w.toNat = (0x00000000#32).toNat := h
    exact (BitVec.eq_of_toNat_eq hz).symm
  | addi | andi | beq | bne => exact formatI_eq_self h
  | add | srl =>
    obtain ⟨hop, hf⟩ := h
    exact formatR_eq_self hop hf
  | sll =>
    obtain ⟨-, hop, hf⟩ := h
    exact formatR_eq_self hop hf

theorem encode_of_decode {w : Word} {i : Instr} (h : decode w = .ok i) : encode i = w := by
  obtain ⟨k, hk, rfl⟩ := (decode_ok_iff w i).1 h
  exact encode_build ((kindByNumber_eq_some_iff _ k).1 hk)

/-- Settles O37: the ill-formed term is not decoded, since its word decodes to `nop`. -/
theorem encodeOfDecodeIsTheWord : Obligations.EncodeOfDecodeIsTheWord := by
  intro w i h
  have he := encode_of_decode h
  cases hw : i.wf with
  | true => exact ⟨rfl, he⟩
  | false =>
    have hnop := decode_encode_of_not_wf hw
    rw [he, h] at hnop
    obtain rfl := Except.ok.inj hnop
    cases hw

/-! ## The decoder by the numbers of a word -/

/-- Settles O33: the numbers fix the kind, and each operand of the kind is the number of its field. -/
theorem decoderReadsEveryFieldFromItsBits : Obligations.DecoderReadsEveryFieldFromItsBits := by
  refine fun w => ⟨fun h => ?_, fun h => ?_, fun ⟨h, hf⟩ => ?_, fun ⟨h, hf⟩ => ?_,
    fun ⟨hz, h, hf⟩ => ?_, fun h => ?_, fun h => ?_⟩
  · exact ⟨_, _, _, decode_of_kind (kindByNumber_addi h), fieldRt_val w, fieldRs_val w,
      fieldImm16_toNat w⟩
  · exact ⟨_, _, _, decode_of_kind (kindByNumber_andi h), fieldRt_val w, fieldRs_val w,
      fieldImm16_toNat w⟩
  · exact ⟨_, _, _, _, decode_of_kind (kindByNumber_add h hf), fieldRd_val w, fieldRs_val w,
      fieldRt_val w⟩
  · exact ⟨_, _, _, _, decode_of_kind (kindByNumber_srl h hf), fieldRd_val w, fieldRs_val w,
      fieldShamt_val w⟩
  · exact ⟨_, _, _, _, decode_of_kind (kindByNumber_sll hz h hf), fieldRd_val w, fieldRs_val w,
      fieldShamt_val w⟩
  · exact ⟨_, _, _, decode_of_kind (kindByNumber_beq h), fieldRs_val w, fieldRt_val w,
      fieldImm16_toNat w⟩
  · exact ⟨_, _, _, decode_of_kind (kindByNumber_bne h), fieldRs_val w, fieldRt_val w,
      fieldImm16_toNat w⟩

theorem decode_error_iff (w : Word) :
    decode w = .error (.unmatchedWord w) ↔ ∀ k, ¬ HasNumbers w.toNat k := by
  simp only [← kindByNumber_eq_some_iff]
  cases h : kindByNumber w.toNat with
  | none => simp [decode_of_none h]
  | some k => simp [decode_of_kind h]

/-- Settles O34: the word is rejected when it has the numbers of no kind. -/
theorem unmatchedWordsAreExactlyTheListedOnes :
    Obligations.UnmatchedWordsAreExactlyTheListedOnes := by
  intro w
  rw [decode_error_iff]
  simp only [List.mem_cons, List.not_mem_nil, or_false]
  constructor
  · intro h
    have haddi : ¬ w.toNat / 2 ^ 26 = 0x08 := h .addi
    have handi : ¬ w.toNat / 2 ^ 26 = 0x0C := h .andi
    have hbeq : ¬ w.toNat / 2 ^ 26 = 0x04 := h .beq
    have hbne : ¬ w.toNat / 2 ^ 26 = 0x05 := h .bne
    have hadd : ¬ (w.toNat / 2 ^ 26 = 0x00 ∧ w.toNat % 2 ^ 6 = 0x20) := h .add
    have hsrl : ¬ (w.toNat / 2 ^ 26 = 0x00 ∧ w.toNat % 2 ^ 6 = 0x02) := h .srl
    have hnop : ¬ w.toNat = 0 := h .nop
    have hsll : ¬ (w.toNat ≠ 0 ∧ w.toNat / 2 ^ 26 = 0x00 ∧ w.toNat % 2 ^ 6 = 0x00) := h .sll
    omega
  · intro h k hk
    cases k <;> simp only [HasNumbers] at hk <;> omega

/-- Settles O35, by running the decoder. -/
theorem exampleWordsDecode : Obligations.ExampleWordsDecode := by
  unfold Obligations.ExampleWordsDecode
  decide

/-! ## The rows of the table exclude each other -/

/-- A word other than the sentinel has the kind of every row that it matches. -/
theorem kindByNumber_of_matches {w : Word} {r : Row} (hr : r ∈ opcodeTable)
    (hm : r.matches w = true) (hw : w.toNat ≠ 0) : kindByNumber w.toNat = some r.kind := by
  have op {k : Kind} {c : Nat} {p : Word} (hm : (Row.mk k 0xFC000000#32 p).matches w = true)
      (hp : p.toNat = c * 2 ^ 26) : w.toNat / 2 ^ 26 = c := (matches_op_iff k c p w hp).1 hm
  have funct {k : Kind} {p : Word} (hm : (Row.mk k 0xFC00003F#32 p).matches w = true)
      (hp : p.toNat < 64) : w.toNat / 2 ^ 26 = 0 ∧ w.toNat % 2 ^ 6 = p.toNat :=
    (matches_funct_iff k p w hp).1 hm
  simp only [opcodeTable, List.mem_cons, List.not_mem_nil, or_false] at hr
  rw [kindByNumber_eq_some_iff]
  rcases hr with rfl | rfl | rfl | rfl | rfl | rfl | rfl | rfl
  · exact absurd ((matches_whole .nop w).1 hm) hw
  · exact op hm rfl
  · exact op hm rfl
  · exact funct hm (by decide)
  · exact funct hm (by decide)
  · exact ⟨hw, funct hm (by decide)⟩
  · exact op hm rfl
  · exact op hm rfl

theorem row_eq_of_kind_eq :
    ∀ a ∈ opcodeTable, ∀ b ∈ opcodeTable, a.kind = b.kind → a = b := by decide

theorem kind_of_matches_zero :
    ∀ r ∈ opcodeTable, r.matches 0x00000000#32 = true → r.kind = .nop ∨ r.kind = .sll := by decide

/-- Settles O38: two rows that match a word other than the sentinel have its one kind, so they are
one row; the sentinel matches the rows of `nop` and `sll` only. -/
theorem rowsExcludeEachOtherButForTheSentinel :
    Obligations.RowsExcludeEachOtherButForTheSentinel := by
  intro w a b ha hb hab hma hmb
  have hkind : a.kind ≠ b.kind := fun h => hab (row_eq_of_kind_eq a ha b hb h)
  have hzero : w = 0x00000000#32 := by
    by_contra hw
    have hn : w.toNat ≠ 0 := fun h => hw (BitVec.eq_of_toNat_eq h)
    have hka := kindByNumber_of_matches ha hma hn
    exact hkind (Option.some.inj (hka.symm.trans (kindByNumber_of_matches hb hmb hn)))
  subst hzero
  refine ⟨rfl, ?_⟩
  rcases kind_of_matches_zero a ha hma with hka | hka <;>
    rcases kind_of_matches_zero b hb hmb with hkb | hkb
  · exact absurd (hka.trans hkb.symm) hkind
  · exact .inl ⟨hka, hkb⟩
  · exact .inr ⟨hka, hkb⟩
  · exact absurd (hka.trans hkb.symm) hkind

end Sys2Proof
end

section
/-! SUPPORT. What the host does to the block and sees of it: the reset event, the placing of one
instruction, the result after the halt (70_reset_and_hazards.md, sections 1 and 2), and register 0 as
the host finds it (10_state.md R11). -/

namespace Sys2Proof.Machine

/-- Settles O2, from the lemma of each field of the reset state. -/
theorem resetEventStartsRunningAtIndexZero : Obligations.ResetEventStartsRunningAtIndexZero :=
  fun base s => ⟨State.resetAt_idx base s.imem, State.resetAt_status base s.imem,
    State.resetAt_imem base s.imem, State.resetAt_pc base s.imem,
    State.resetAt_reg base s.imem, rfl⟩

/-- The example word of R11: `addi $zero $zero 5` as the first step. -/
theorem step_resetAt_addi_zero_five (base : Word) :
    ∃ t, step (State.resetAt base [0x20000005#32]) = .next t ∧ t.reg 0 = 5#32 := by
  have hi : (State.resetAt base [0x20000005#32]).AtInstr (.addi 0 0 5#16) :=
    ⟨0x20000005#32, (State.resetAt_atWord_iff base _ _).2 rfl, by decide⟩
  obtain ⟨t, ht, hv⟩ := exec_writes_of_eq_writeStep
    (exec_addi 0 0 5#16 (State.resetAt base [0x20000005#32]))
  refine ⟨t, (stepRunsTheDecodedInstruction _ _ hi).trans ht, ?_⟩
  rw [hv, State.resetAt_reg]
  decide

/-- Settles O20: each writing instruction is a `writeStep`, to register 0 as to any other. -/
theorem registerZeroKeepsWhatIsWritten : Obligations.RegisterZeroKeepsWhatIsWritten :=
  ⟨fun s rs imm => exec_writes_of_eq_writeStep (exec_addi 0 rs imm s),
    fun s rs imm => exec_writes_of_eq_writeStep (exec_andi 0 rs imm s),
    fun s rs rt unused => exec_writes_of_eq_writeStep (exec_add 0 rs rt unused s),
    fun s rs shamt unused => exec_writes_of_eq_writeStep (exec_srl 0 rs shamt unused s),
    fun s rs shamt unused => exec_writes_of_eq_writeStep (exec_sll 0 rs shamt unused s),
    step_resetAt_addi_zero_five⟩

theorem withFetchWord_atWord (s : State) (nbits w : Nat) :
    (s.withFetchWord nbits w).AtWord (tableWord nbits w) :=
  ⟨rfl, Int.natCast_nonneg _, Memory.place_get_self s.imem s.idx.toNat (tableWord nbits w)⟩

/-- Settles O39: the placed word is the one at the cursor. -/
theorem placedInstructionIsTheNextOneRun : Obligations.PlacedInstructionIsTheNextOneRun := by
  intro s nbits w i h
  have hi : (s.withFetchWord nbits w).AtInstr i :=
    ⟨tableWord nbits w, withFetchWord_atWord s nbits w, (decodeTableWord_eq_some nbits w i).1 h⟩
  exact ⟨hi, stepRunsTheDecodedInstruction _ i hi, rfl, fun _ => rfl⟩

theorem observe_of_running {s : State} (h : s.status = .running) : observe s = none := by
  rw [observe, h]

theorem observe_of_halted {s : State} (h : s.status = .halted) :
    observe s = some (s.regs, s.pc) := by
  rw [observe, h]

/-- Settles O40, by the two values of the status. -/
theorem resultIsObservableOnlyAfterTheHalt : Obligations.ResultIsObservableOnlyAfterTheHalt :=
  fun s => ⟨observe_of_running, fun h => ⟨s.regs, observe_of_halted h, fun _ => rfl⟩⟩

end Sys2Proof.Machine
end

section
/-! SUPPORT. The assembler: names, ranges, one word for each line, and the branches of an assembled
stream (30_encoding.md, section 5). -/

namespace Sys2Proof.Asm

open Sys2Proof.Machine

/-! ## Names and ranges -/

theorem registerName_injective : ∀ r q : Reg, registerName r = registerName q → r = q := by decide

theorem findRegister_eq_find (t : Text) (r : Reg) :
    findRegister t = .ok r ↔
      ((List.finRange 32).find? fun q => registerName q == t) = some r := by
  unfold findRegister
  cases (List.finRange 32).find? fun q => registerName q == t <;> simp

/-- Settles O41: the names differ from each other, so the lookup finds the one register of a name. -/
theorem registerNamesGiveTheirIndices : Obligations.RegisterNamesGiveTheirIndices := by
  refine ⟨fun r => ?_, fun t ht => ?_⟩
  · rw [findRegister_eq_find]
    cases hf : (List.finRange 32).find? fun q => registerName q == registerName r with
    | none => simpa using List.find?_eq_none.1 hf r (List.mem_finRange r)
    | some q => rw [registerName_injective q r (by simpa using List.find?_some hf)]
  · have hf : ((List.finRange 32).find? fun q => registerName q == t) = none :=
      List.find?_eq_none.2 fun q _ => by simpa using ht q
    rw [findRegister, hf]

theorem packImm_of_mem {v : Int} (h : -32768 ≤ v ∧ v ≤ 32767) :
    packImm v = .ok (BitVec.ofInt 16 v) := if_pos h

theorem packImm_of_not_mem {v : Int} (h : ¬ (-32768 ≤ v ∧ v ≤ 32767)) :
    packImm v = .error (.outOfRange v) := if_neg h

theorem ofInt16_toNat {v : Int} (h : -32768 ≤ v ∧ v ≤ 32767) :
    ((BitVec.ofInt 16 v).toNat : Int) = if v < 0 then v + 65536 else v := by
  rw [BitVec.toNat_ofInt]
  split <;> omega

theorem packShamt_of_mem {v : Int} (h : 0 ≤ v ∧ v ≤ 31) :
    packShamt v = .ok ⟨v.toNat, by omega⟩ := dif_pos h

theorem packShamt_of_not_mem {v : Int} (h : ¬ (0 ≤ v ∧ v ≤ 31)) :
    packShamt v = .error (.outOfRange v) := dif_neg h

/-- Settles O42: both packings inside and outside their ranges. -/
theorem fieldsAreRangeCheckedNeverTruncated : Obligations.FieldsAreRangeCheckedNeverTruncated :=
  fun _ => ⟨fun h => ⟨_, packImm_of_mem h, signedValue_ofInt h, ofInt16_toNat h⟩,
    packImm_of_not_mem, fun h => ⟨_, packShamt_of_mem h, Int.toNat_of_nonneg h.1⟩,
    packShamt_of_not_mem⟩

/-! ## One word for each line -/

theorem assembleFrom_cons_ok_iff (ls rest : List Line) (c : Nat) (l : Line) (ws : List Word) :
    assembleFrom ls c (l :: rest) = .ok ws ↔
      ∃ i tail, assembleLine ls c l = .ok i ∧ assembleFrom ls (c + 1) rest = .ok tail ∧
        ws = encode i :: tail := by
  rw [assembleFrom]
  cases assembleLine ls c l with
  | error e => simp
  | ok i =>
    cases assembleFrom ls (c + 1) rest with
    | error e => simp
    | ok tail => simp [eq_comm]

/-- The words are those of the lines, in order: the word of line `c + j` of the source stands at
index `j` of the words from line `c` on. -/
theorem assembleFrom_ok_iff (ls rest : List Line) (c : Nat) (ws : List Word) :
    assembleFrom ls c rest = .ok ws ↔
      ws.length = rest.length ∧ ∀ (j : Nat) (l : Line), rest[j]? = some l →
        ∃ i, assembleLine ls (c + j) l = .ok i ∧ ws[j]? = some (encode i) := by
  induction rest generalizing c ws with
  | nil =>
    rw [assembleFrom, Except.ok.injEq, eq_comm]
    simp
  | cons l rest ih =>
    rw [assembleFrom_cons_ok_iff]
    constructor
    · rintro ⟨i, tail, hi, htail, rfl⟩
      obtain ⟨hlen, hword⟩ := (ih (c + 1) tail).1 htail
      refine ⟨by simp [hlen], fun j l' hl => ?_⟩
      cases j with
      | zero =>
        obtain rfl := Option.some.inj hl
        exact ⟨i, hi, rfl⟩
      | succ j => simpa [Nat.add_right_comm, Nat.add_assoc] using hword j l' (by simpa using hl)
    · rintro ⟨hlen, hword⟩
      obtain ⟨i, hi, hw⟩ := hword 0 l rfl
      obtain ⟨tail, rfl⟩ : ∃ tail, ws = encode i :: tail := by
        cases ws with
        | nil => cases hw
        | cons w tail => exact ⟨tail, by rw [Option.some.inj hw]⟩
      refine ⟨i, tail, hi, (ih (c + 1) tail).2 ⟨by simpa using hlen, fun j l' hl => ?_⟩, rfl⟩
      simpa [Nat.add_right_comm, Nat.add_assoc] using hword (j + 1) l' (by simpa using hl)

theorem assembleLines_ok_iff (ls : List Line) (ws : List Word) :
    assembleLines ls = .ok ws ↔
      ws.length = ls.length ∧ ∀ (c : Nat) (l : Line), ls[c]? = some l →
        ∃ i, assembleLine ls c l = .ok i ∧ ws[c]? = some (encode i) := by
  simpa [assembleLines] using assembleFrom_ok_iff ls ls 0 ws

/-- Settles O44: splitting and encoding both keep the number of lines. -/
theorem assemblyIsOneWordPerLineOrNothing : Obligations.AssemblyIsOneWordPerLineOrNothing := by
  refine ⟨fun src ws h => ?_, assembleLines_ok_iff⟩
  obtain ⟨ls, hls, hws⟩ := assemble_ok h
  obtain ⟨hlen, -⟩ := (assembleLines_ok_iff ls ws).1 hws
  exact hlen.trans (parseAll_length hls)

/-! ## The branches of an assembled stream -/

/-- A branch is well-formed, so it is what its word decodes to. -/
theorem decode_encode_of_offset {i : Instr} {o : BitVec 16} (h : i.offset = some o) :
    decode (encode i) = .ok i := by
  refine decode_encode ?_
  by_contra hw
  obtain rfl := eq_sll_zero_of_not_wf (Bool.not_eq_true _ ▸ hw)
  cases h

/-- The line of a `beq` or a `bne` assembles to a branch whose offset leads from it to its label. -/
theorem assembleLine_branch {ls : List Line} {c t : Nat} {l : Line} {a b target : Text} {i : Instr}
    (hm : l.mnemonic = mnemonicOf .beq ∨ l.mnemonic = mnemonicOf .bne)
    (hargs : l.args = [a, b, target]) (ht : findLabel ls target = .ok t)
    (h : assembleLine ls c l = .ok i) :
    ∃ o, i.offset = some o ∧ (c : Int) + signedValue o + 1 = t := by
  have hfield {o : BitVec 16} (ho : targetField ls c target = .ok o) :
      (c : Int) + signedValue o + 1 = t := by
    obtain ⟨t', ht', hb⟩ := targetField_ok ho
    obtain rfl := Except.ok.inj (ht.symm.trans ht')
    exact branchField_ok hb
  have hbeq : findKind (mnemonicOf .beq) = .ok .beq := by decide
  have hbne : findKind (mnemonicOf .bne) = .ok .bne := by decide
  rcases hm with hm | hm
  · rw [assembleLine, hm, hbeq, hargs] at h
    obtain ⟨rs, rt, o, rfl, ho⟩ := branchLine_ok (op := .beq) h
    exact ⟨o, rfl, hfield ho⟩
  · rw [assembleLine, hm, hbne, hargs] at h
    obtain ⟨rs, rt, o, rfl, ho⟩ := branchLine_ok (op := .bne) h
    exact ⟨o, rfl, hfield ho⟩

/-- Settles O45: the block is at the branch that the line assembles to, whose target is the line of
the label. -/
theorem assembledBranchContinuesAtItsLabel : Obligations.AssembledBranchContinuesAtItsLabel := by
  rintro ls ws c t l a b target s hasm hl hm hargs ht hrun rfl hidx hb
  obtain ⟨hlen, hword⟩ := (assembleLines_ok_iff ls s.imem).1 hasm
  obtain ⟨i, hline, hw⟩ := hword c l hl
  obtain ⟨o, ho, htarget⟩ := assembleLine_branch hm hargs ht hline
  have hi : s.AtInstr i :=
    ⟨encode i, ⟨hrun, by omega, by rwa [hidx, Int.toNat_natCast]⟩, decode_encode_of_offset ho⟩
  refine ⟨_, step_of_branchTaken hi ho hb, ?_, hlen ▸ findLabel_lt ht⟩
  rw [takeBranch_target, hidx, htarget]

theorem branchesStayInside_of_assembleLines {ls : List Line} {ws : List Word}
    (h : assembleLines ls = .ok ws) : BranchesStayInside ws := by
  obtain ⟨hlen, hword⟩ := (assembleLines_ok_iff ls ws).1 h
  intro c w i o hw hd ho
  have hc : c < ls.length := hlen ▸ (List.getElem?_eq_some_iff.1 hw).1
  obtain ⟨i', hline, hw'⟩ := hword c ls[c] (List.getElem?_eq_getElem hc)
  obtain rfl := Option.some.inj (hw.symm.trans hw')
  obtain rfl : i' = i := by
    cases hwf : i'.wf with
    | true => exact Except.ok.inj ((decode_encode hwf).symm.trans hd)
    | false =>
      obtain rfl := Except.ok.inj ((decode_encode_of_not_wf hwf).symm.trans hd)
      cases ho
  obtain ⟨t, ht, hb⟩ := assembleLine_offset hline ho
  have := branchField_ok hb
  rw [signed16_eq, Memory.size_eq]
  omega

/-- Settles O46: every branch of an assembled stream stays inside it. -/
theorem assembledStreamsNeverStop : Obligations.AssembledStreamsNeverStop := by
  intro src ws h
  obtain ⟨ls, -, hls⟩ := assemble_ok h
  have hin := branchesStayInside_of_assembleLines hls
  exact ⟨fun s hs h0 => neverStops_of_branchesStayInside (hs ▸ hin) h0,
    fun base => neverStops_of_branchesStayInside hin (State.resetAt_idx base ws).ge⟩

end Sys2Proof.Asm
end
